-- ==== Sys2Proof/Word.lean ====
section
/-! DEFINITION. The bit vectors of the block: what the spec treats as bits, and nothing else.
Offsets, bit positions and whole command words are naturals (R6, R40: "All arithmetic on offsets and
positions is on unbounded naturals"). -/

namespace Sys2Proof

/-- A data byte, or one entry of `code_memory` (R5: `DATA_W` = `CODE_W` = 8). -/
abbrev Byte := BitVec 8

/-- A syndrome, a group of the four distributed parities, a kind code (R5: `SYN_W` = 4; R44). -/
abbrev Nibble := BitVec 4

/-- The 13-bit encoded word, and a 13-bit mask over its positions (R5: `WORD_BITS` = 13; R9). -/
abbrev Word13 := BitVec 13

/-- A response word (R44: 16 bits). -/
abbrev ResponseWord := BitVec 16

end Sys2Proof
end

