-- ==== Sys2Proof/Config.lean ====
section
/-! DEFINITION. The parameters of the block (R5). `MEM_SIZE` and `OFFSET_W` are OPEN: a model takes them
as arguments, so they are data that State carries (log 1) and every statement quantifies over them.
No free value is needed: the spec determines every result (R93). -/

namespace Sys2Proof

/-- The open parameters of R5. -/
structure Params where
  /-- `MEM_SIZE`: the number of offsets (R5, D2). -/
  memSize : Nat
  /-- `OFFSET_W`: the width in bits of the command's offset field (R5, D3). -/
  offsetW : Nat
  deriving DecidableEq, Repr

/-- The bounds R5 puts on the open parameters: `1 <= MEM_SIZE <= 2^OFFSET_W` and `OFFSET_W >= 1`. -/
abbrev Params.wf (p : Params) : Prop :=
  1 ≤ p.memSize ∧ p.memSize ≤ 2 ^ p.offsetW ∧ 1 ≤ p.offsetW

/-- The values that `spec/95_test_vectors.md` works with, MEM_SIZE = 16 and OFFSET_W = 8.
DESIGN CHOICE (log 1): R5 leaves both open; `State.reset` needs one pair. -/
def Params.vectors : Params where
  memSize := 16
  offsetW := 8

/-- `CMD_W = 16 + OFFSET_W`, the width of a command word (R39). -/
def cmdWidth (offsetW : Nat) : Nat := 16 + offsetW

end Sys2Proof
end

