-- ==== Sys2Proof/Machine/State.lean ====
section
/-! DEFINITION. The state of the machine as plain data: the block's own state is exactly the tuple of R10 (`Bank`);
beside it stand the block's parameters (R5), whether the first reset has happened (R23), and the host's side of the
command port (R16, R92, R93). And the ways a step can end without a next state. -/

namespace Sys2Proof.Machine

/-- One array of the bank: its entries that are not 0x00, by offset, in strictly rising order; an offset that is not
listed reads as 0x00, the reset value of R22 (log 7). `Memory.wf` states the form. -/
abbrev Memory := List Host.Cell

/-- The state of the block, exactly the tuple of R10. -/
structure Bank where
  /-- `data_memory`: "the 8-bit logical data byte stored at `offset`" (R11). -/
  dataMemory : Memory
  /-- `code_memory`: pW, p1, p2, p3, p4 in bits 7..3 and the unused bits 2..0 (R12). -/
  codeMemory : Memory
  /-- `trace_enable` (R18). -/
  traceEnable : Bool
  deriving DecidableEq, Repr

/-- What the host may present to the block, one at a time (R89, R92). -/
inductive HostInput where
  /-- A command word of `CMD_W` bits, legal or not (R39, R92), as a natural number. -/
  | command (word : Nat)
  /-- Hardware reset (R89; log 5). -/
  | reset
  deriving DecidableEq, Repr

/-- The host's side of the command port. It is no state of the block (R10, R16, R21): the interface of a step has no
other place for the commands that come in and the response words that go out (log 2). -/
structure HostSide where
  /-- What the host has still to present, the next one first. -/
  pending : List HostInput
  /-- The response words received so far, the oldest first. -/
  responses : List ResponseWord
  deriving DecidableEq, Repr

/-- The whole state. -/
structure State where
  /-- `MEM_SIZE` and `OFFSET_W` (R5); no step changes them (log 1). -/
  params : Params
  /-- The block's state (R10). -/
  bank : Bank
  /-- Whether the block has had its first reset (R23, R91; log 4). -/
  hasBeenReset : Bool
  /-- The host's side (log 2). -/
  host : HostSide
  deriving DecidableEq, Repr

/-- Why a machine stops with a fault. There is no such reason on this hardware, so the type has no constructor: "The
block never traps, halts or changes mode. Every error ... is a response" (R80; log 9). Nobody raises a fault. -/
inductive Fault
  deriving DecidableEq, Repr

/-- Why a step gives no next state although nothing faulted. -/
inductive Refusal where
  /-- The command has no meaning in this model. No arm of `exec` raises it: every command has its meaning. Safe. -/
  | notModelled (mnemonic : String)
  /-- Raised by `step` on a command, other than CREATE_BANK, that is presented before the first reset: "refused (no
  meaning, not a value)" (R23, R91; log 4). Safe. -/
  | beforeReset
  /-- Raised by `step` when the host has nothing left to present: the run has ended (R93), and "the block is passive and
  does nothing between commands" (R92; log 3). Safe. -/
  | noInput
  /-- Raised by `step` on a number that does not fit the `CMD_W` bits of the command port (R39, R45), so that no host
  could present it (log 6). Safe. -/
  | notACommandWord
  deriving DecidableEq, Repr

/-- The bank after reset and after CREATE_BANK: every entry 0x00, the trace flag 0 (R22). -/
def Bank.zero : Bank where
  dataMemory := []
  codeMemory := []
  traceEnable := false

/-- The machine right after reset, for any parameters (R22, R89). The host's two lists are empty (log 3). -/
def State.resetWith (p : Params) : State where
  params := p
  bank := Bank.zero
  hasBeenReset := true
  host := { pending := [], responses := [] }

/-- The machine right after reset, with the parameters of the spec's test vectors (log 1). -/
def State.reset : State := State.resetWith Params.vectors

end Sys2Proof.Machine
end

