-- ==== Sys2Proof/Machine/Flags.lean ====
section
/-! DEFINITION. The result kinds and the response word. The block keeps no status flags (R17): what a flag register
would hold goes out in the response word of each command (R21, R44, R76). -/

namespace Sys2Proof.Machine

/-- The result kinds of R76. -/
inductive Kind where
  | noError
  | parityBitError
  /-- The reported position 1..12 is the response's `syn` field (R44). -/
  | singleBitError
  | doubleBitError
  | unknownError
  | boundsOffset
  | boundsPosition
  | illegalCommand
  deriving DecidableEq, Repr

/-- The numeric kind codes of R76. -/
def Kind.code : Kind → Nibble
  | .noError => 0
  | .parityBitError => 1
  | .singleBitError => 2
  | .doubleBitError => 3
  | .unknownError => 4
  | .boundsOffset => 5
  | .boundsPosition => 6
  | .illegalCommand => 7

/-- The response word, byte in 15:8, syn in 7:4, kind in 3:0 (R44). -/
def responseWord (kind : Kind) (syn : Nibble) (byte : Byte) : ResponseWord :=
  (byte ++ syn ++ kind.code).cast rfl

/-- The `kind` field of a response word (R44). -/
def respKind (r : ResponseWord) : Nibble := r.extractLsb' 0 4

/-- The `syn` field of a response word (R44). -/
def respSyn (r : ResponseWord) : Nibble := r.extractLsb' 4 4

/-- The `byte` field of a response word (R44). -/
def respByte (r : ResponseWord) : Byte := r.extractLsb' 8 8

end Sys2Proof.Machine
end

