-- ==== Sys2Proof/Machine/Operands.lean ====
section
/-! DEFINITION. Bit selection and the operand forms: the data bits d1..d8 (R7), the fields of a code byte (R38), and
the bit positions 0..12 of the encoded word (R37, R68). -/

namespace Sys2Proof.Machine

/-- `d_i(b) = b[8-i]` for i = 1..8 (R7). -/
def dataBit (i : Nat) (b : Byte) : Bool := b.getLsbD (8 - i)

/-- `{pW, p1, p2, p3, p4, 0b000}` (R38, R47). -/
def packCode (pW p1 p2 p3 p4 : Bool) : Byte :=
  (BitVec.ofBool pW ++ BitVec.ofBool p1 ++ BitVec.ofBool p2 ++ BitVec.ofBool p3 ++ BitVec.ofBool p4 ++ 0#3).cast rfl

/-- `c[6:3]`, the 4-bit group `{p1, p2, p3, p4}` of a code byte (R38). -/
def parityGroup (c : Byte) : Nibble := c.extractLsb' 3 4

/-- `rev4(x)[i] = x[3-i]` (R6). -/
def rev4 (x : Nibble) : Nibble :=
  (BitVec.ofBool (x.getLsbD 0) ++ BitVec.ofBool (x.getLsbD 1) ++ BitVec.ofBool (x.getLsbD 2) ++
    BitVec.ofBool (x.getLsbD 3)).cast rfl

/-- `parity(v)`: the XOR of all bits of `v` (R6). -/
def parity {n : Nat} (v : BitVec n) : Bool :=
  (List.range n).foldl (fun acc i => acc ^^ v.getLsbD i) false

/-- `popcount(v)`: the number of set bits of `v` (R6). -/
def popcount {n : Nat} (v : BitVec n) : Nat :=
  (List.range n).countP fun i => v.getLsbD i

/-- The stored bit a position of the encoded word selects (R37, R68). -/
inductive Target where
  /-- Bit `bit` of the data byte. -/
  | data (bit : Nat)
  /-- Bit `bit` of the code byte. -/
  | code (bit : Nat)
  deriving DecidableEq, Repr

/-- The position map (R37, R68); positions above 12 select nothing. No position selects bits 2:0 of a code byte. -/
def target : Nat → Option Target
  | 0 => some (.code 7)
  | 1 => some (.code 6)
  | 2 => some (.code 5)
  | 3 => some (.data 7)
  | 4 => some (.code 4)
  | 5 => some (.data 6)
  | 6 => some (.data 5)
  | 7 => some (.data 4)
  | 8 => some (.code 3)
  | 9 => some (.data 3)
  | 10 => some (.data 2)
  | 11 => some (.data 1)
  | 12 => some (.data 0)
  | _ => none

/-- `v XOR (1 << i)` (R60, R69). -/
def toggleBit (v : Byte) (i : Nat) : Byte := v ^^^ (1#8 <<< i)

end Sys2Proof.Machine
end

