-- ==== Sys2Proof/Machine/Codeword.lean ====
section
/-! DEFINITION. The combinational parts of the block: the codeword encoder (R47), the decoder's functions (R55 to R58),
the syndrome classifier (R59) and the returned byte (R60); and the notation of R9 for encoded words and error patterns. -/

namespace Sys2Proof.Machine

/-- The codeword encoder (R47): five parities over fixed groups of data bits, packed as R38 says. -/
def computeCodeword (b : Byte) : Byte :=
  let d i := dataBit i b
  let p1 := d 7 ^^ d 5 ^^ d 4 ^^ d 2 ^^ d 1
  let p2 := d 7 ^^ d 6 ^^ d 4 ^^ d 3 ^^ d 1
  let p3 := d 8 ^^ d 4 ^^ d 3 ^^ d 2
  let p4 := d 8 ^^ d 7 ^^ d 6 ^^ d 5
  let pW := d 1 ^^ d 2 ^^ d 3 ^^ d 4 ^^ d 5 ^^ d 6 ^^ d 7 ^^ d 8 ^^ p1 ^^ p2 ^^ p3 ^^ p4
  packCode pW p1 p2 p3 p4

/-- The syndrome S of a stored pair (R55, R56 as corrected by 90_conflicts.md C1): the codeword is recomputed from the
current data byte, and p1 has weight 1, p4 weight 8. -/
def syndrome (d c : Byte) : Nibble := rev4 (parityGroup (computeCodeword d) ^^^ parityGroup c)

/-- `pW_stored = c[7]` (R57). -/
def pWStored (c : Byte) : Bool := c.getLsbD 7

/-- `pW_recomputed`: the parity of the data bits and the four STORED distributed parities (R58). -/
def pWRecomputed (d c : Byte) : Bool :=
  parity d ^^ c.getLsbD 6 ^^ c.getLsbD 5 ^^ c.getLsbD 4 ^^ c.getLsbD 3

/-- The match bit `m = (pW_stored = pW_recomputed)` (R58). -/
def parityMatches (d c : Byte) : Bool := pWStored c == pWRecomputed d c

/-- The syndrome classifier (R59; positions 1..12 by 90_conflicts.md C2, S in 13..15 by C5 and D12). -/
def classify (S : Nibble) (m : Bool) : Kind :=
  if S = 0 then (if m then .noError else .parityBitError)
  else if m then .doubleBitError
  else if S.toNat ≤ 12 then .singleBitError
  else .unknownError

/-- The classification of a stored pair (R61). -/
def pairKind (d c : Byte) : Kind := classify (syndrome d c) (parityMatches d c)

/-- The data byte with the bit at a data position toggled; a parity position leaves it as it is (R60). -/
def correctAt (S : Nibble) (d : Byte) : Byte :=
  match target S.toNat with
  | some (.data i) => toggleBit d i
  | some (.code _) => d
  | none => d

/-- The byte a READ returns (R60): corrected for a single-bit error at a data position, otherwise the stored byte. -/
def returnedByte (k : Kind) (S : Nibble) (d : Byte) : Byte :=
  if k = .singleBitError then correctAt S d else d

/-- `{pwr, c[6:0]}`: the code byte with its overall parity bit overwritten by the recomputed one (R61). -/
def healedCode (d c : Byte) : Byte :=
  (BitVec.ofBool (pWRecomputed d c) ++ c.extractLsb' 0 7).cast rfl

/-- The response of a READ of a stored pair (R61). -/
def readResponse (d c : Byte) : ResponseWord :=
  responseWord (pairKind d c) (syndrome d c) (returnedByte (pairKind d c) (syndrome d c) d)

/-- The code byte that a READ of a stored pair leaves (R61: only the self-heal writes). -/
def codeAfterRead (d c : Byte) : Byte := if pairKind d c = .parityBitError then healedCode d c else c

/-! ### Encoded words and error patterns (R9, R37) -/

/-- `W13(data, code)`, position 0 in the most significant bit: pW p1 p2 d1 p3 d2 d3 d4 p4 d5 d6 d7 d8 (R9, R37). -/
def encodedWord (d c : Byte) : Word13 :=
  (BitVec.ofBool (c.getLsbD 7) ++ BitVec.ofBool (c.getLsbD 6) ++ BitVec.ofBool (c.getLsbD 5) ++
  BitVec.ofBool (dataBit 1 d) ++ BitVec.ofBool (c.getLsbD 4) ++ BitVec.ofBool (dataBit 2 d) ++
  BitVec.ofBool (dataBit 3 d) ++ BitVec.ofBool (dataBit 4 d) ++ BitVec.ofBool (c.getLsbD 3) ++
  BitVec.ofBool (dataBit 5 d) ++ BitVec.ofBool (dataBit 6 d) ++ BitVec.ofBool (dataBit 7 d) ++
  BitVec.ofBool (dataBit 8 d)).cast rfl

/-- Whether position `k` is set in a mask over positions 0..12. "As a 13-bit integer `W`, position `k` is `W[12-k]`"
(R37); R9 leaves the numbering of a mask open and the model takes the same one (log 8). -/
def positionSet (e : Word13) (k : Nat) : Bool := e.getLsbD (12 - k)

/-- The mask with the one position `p` set (log 8). -/
def positionMask (p : Nat) : Word13 := 1#13 <<< (12 - p)

/-- A stored pair with the bit at a target toggled. -/
def toggleTarget (t : Target) (x : Byte × Byte) : Byte × Byte :=
  match t with
  | .data i => (toggleBit x.1 i, x.2)
  | .code j => (x.1, toggleBit x.2 j)

/-- `flip_p(data, code)`: the pair after the injector toggles position `p` (R9). -/
def flipPair (p : Nat) (x : Byte × Byte) : Byte × Byte :=
  match target p with
  | some t => toggleTarget t x
  | none => x

/-- *Applying* an error pattern: every position whose bit in `e` is set is toggled (R9). -/
def applyPattern (e : Word13) (x : Byte × Byte) : Byte × Byte :=
  (List.range 13).foldl (fun y k => if positionSet e k then flipPair k y else y) x

/-- The XOR of the positions set in a pattern; position 0 contributes nothing (R63). -/
def xorOfPositions (e : Word13) : Nibble :=
  (List.range 13).foldl (fun acc k => if positionSet e k then acc ^^^ BitVec.ofNat 4 k else acc) 0

/-- A valid pair: `code = computeCodeword(data)` (00_scope.md, glossary). -/
abbrev validPair (d c : Byte) : Prop := c = computeCodeword d

end Sys2Proof.Machine
end

