-- ==== Sys2Proof/Machine/Ops.lean ====
section
/-! DEFINITION. The named operations over the arrays, the trace flag and the host's side, which the meanings are made of:
the primitives of R8, the bound check of R26, and `raise`, the one way a command ends in an error (the block takes no
exceptions: R80). -/

namespace Sys2Proof.Machine

/-! ### Arrays -/

/-- One entry of an array; an unlisted offset reads as 0x00 (R22; log 7). -/
def Memory.read : Memory → Nat → Byte
  | [], _ => 0
  | (k, v) :: m, a => if k = a then v else Memory.read m a

/-- The array without an entry for `a`. -/
def Memory.erase : Memory → Nat → Memory
  | [], _ => []
  | (k, v) :: m, a => if k = a then Memory.erase m a else (k, v) :: Memory.erase m a

/-- The array with an entry put before the first larger offset. -/
def Memory.insert : Memory → Nat → Byte → Memory
  | [], a, v => [(a, v)]
  | (k, x) :: m, a, v => if a < k then (a, v) :: (k, x) :: m else (k, x) :: Memory.insert m a v

/-- One entry of an array replaced; writing 0x00 removes the entry, which keeps the canonical form (log 7). -/
def Memory.write (m : Memory) (a : Nat) (v : Byte) : Memory :=
  if v = 0 then m.erase a else (m.erase a).insert a v

/-- The canonical form: offsets strictly rising, no entry equal to what an unlisted offset reads as. -/
abbrev Memory.wf (m : Memory) : Prop := m.Pairwise (fun x y => x.1 < y.1) ∧ ∀ x ∈ m, x.2 ≠ 0

/-- Every listed offset lies in the offset space `0 .. n-1` (R19). -/
abbrev Memory.within (n : Nat) (m : Memory) : Prop := ∀ x ∈ m, x.1 < n

/-! ### The primitives of R8. The commands call them for `o < MEM_SIZE` only (R26; log 7). -/

/-- `DRead(o)` (R8). -/
def State.dRead (s : State) (o : Nat) : Byte := s.bank.dataMemory.read o

/-- `CRead(o)` (R8). -/
def State.cRead (s : State) (o : Nat) : Byte := s.bank.codeMemory.read o

/-- `DWrite(o, v)` (R8). -/
def State.dWrite (s : State) (o : Nat) (v : Byte) : State :=
  { s with bank := { s.bank with dataMemory := s.bank.dataMemory.write o v } }

/-- `CWrite(o, v)` (R8). -/
def State.cWrite (s : State) (o : Nat) (v : Byte) : State :=
  { s with bank := { s.bank with codeMemory := s.bank.codeMemory.write o v } }

/-- `trace_enable <- en` (R73). -/
def State.setTraceEnable (s : State) (en : Bool) : State :=
  { s with bank := { s.bank with traceEnable := en } }

/-- One stored bit toggled in place (R69); nothing is re-encoded. -/
def State.toggle (s : State) (o : Nat) : Target → State
  | .data i => s.dWrite o (toggleBit (s.dRead o) i)
  | .code j => s.cWrite o (toggleBit (s.cRead o) j)

/-- Every piece of the block's state at its reset value (R22): the update of hardware reset and of CREATE_BANK alike
(R72, R89). From then on the block has been reset (R91; log 4). -/
def State.resetBlock (s : State) : State := { s with bank := Bank.zero, hasBeenReset := true }

/-! ### The host's side -/

/-- One more response word received by the host (R21, R92). -/
def State.respond (s : State) (r : ResponseWord) : State :=
  { s with host := { s.host with responses := s.host.responses ++ [r] } }

/-- What the host has still to present. -/
def State.withPending (s : State) (l : List HostInput) : State :=
  { s with host := { s.host with pending := l } }

/-- The program index `k` of R16: the number of commands answered so far. -/
def State.programIndex (s : State) : Nat := s.host.responses.length

/-! ### How a command ends -/

/-- `respond(kind, syn, byte)`: ends the command with its response word (R8, R44). -/
def finish (kind : Kind) (syn : Nibble) (byte : Byte) (s : State) : Host.Outcome State Fault Refusal :=
  .next (s.respond (responseWord kind syn byte))

/-- `raise K()`: ends the command at once with a response of kind `K`, syndrome 0 and byte 0, and no state written
(R8, R77, R78). This is all that an error does: the block has no trap entry, saved state or vector (R80). -/
def raise (kind : Kind) (s : State) : Host.Outcome State Fault Refusal := finish kind 0 0 s

/-- The bound check of R26, before any access: the offset as a natural against `MEM_SIZE`, never reduced (R27). -/
def withOffset (o : Nat) (s : State) (body : Host.Outcome State Fault Refusal) : Host.Outcome State Fault Refusal :=
  if s.params.memSize ≤ o then raise .boundsOffset s else body

end Sys2Proof.Machine
end

