-- ==== Sys2Proof/Machine/Control.lean ====
section
/-! DEFINITION. The bank control commands: CREATE_BANK (R72) and SET_TRACE (R73). Neither can fail. -/

namespace Sys2Proof.Machine

/-- CREATE_BANK (R72): the whole state of the block takes its reset values, `trace_enable` included. -/
def execCreateBank (s : State) : Host.Outcome State Fault Refusal := finish .noError 0 0 s.resetBlock

/-- SET_TRACE (R73): only `trace_enable` changes. -/
def execSetTrace (en : Bool) (s : State) : Host.Outcome State Fault Refusal :=
  finish .noError 0 0 (s.setTraceEnable en)

end Sys2Proof.Machine
end

