-- ==== Sys2Proof/Machine/FlipBit.lean ====
section
/-! DEFINITION. The bit-flip injector: FLIP_BIT (R69). -/

namespace Sys2Proof.Machine

/-- FLIP_BIT (R69): the offset is checked before the position (R79); a position that selects no stored bit (13..15) is
"rejected (reported, not applied)". -/
def execFlipBit (o p : Nat) (s : State) : Host.Outcome State Fault Refusal :=
  withOffset o s
    (match target p with
    | some t => finish .noError 0 0 (s.toggle o t)
    | none => raise .boundsPosition s)

end Sys2Proof.Machine
end

