-- ==== Sys2Proof/Machine/Read.lean ====
section
/-! DEFINITION. The read path: READ (R61). -/

namespace Sys2Proof.Machine

/-- The one state write of READ: the self-heal of the stored overall parity on ParityBitError (R61, R96). -/
def State.selfHeal (s : State) (o : Nat) : State :=
  if pairKind (s.dRead o) (s.cRead o) = .parityBitError
  then s.cWrite o (healedCode (s.dRead o) (s.cRead o))
  else s

/-- READ (R61): classify the pair as it stands, heal pW on ParityBitError, respond kind, syndrome and byte. -/
def execRead (o : Nat) (s : State) : Host.Outcome State Fault Refusal :=
  withOffset o s (.next ((s.selfHeal o).respond (readResponse (s.dRead o) (s.cRead o))))

end Sys2Proof.Machine
end

