-- ==== Sys2Proof/Machine/Write.lean ====
section
/-! DEFINITION. The write path: WRITE (R54). -/

namespace Sys2Proof.Machine

/-- WRITE (R54): the byte and its codeword are stored as one update of the pair. -/
def execWrite (o : Nat) (b : Byte) (s : State) : Host.Outcome State Fault Refusal :=
  withOffset o s (finish .noError 0 0 ((s.dWrite o b).cWrite o (computeCodeword b)))

end Sys2Proof.Machine
end

