-- ==== Sys2Proof/Syntax.lean ====
section
/-! DEFINITION. The five commands (R41), with the operands R40 assembles. The fields a command does not use
are no operands (R43). -/

namespace Sys2Proof

/-- A command of the block; one constructor per row of `spec/opcode_table.json`. -/
inductive Instr where
  /-- WRITE (R54): store a byte and its codeword. -/
  | write (offset : Nat) (data : Byte)
  /-- READ (R61): decode, classify and report one offset. -/
  | read (offset : Nat)
  /-- FLIP_BIT (R69): toggle one stored bit; `pos` is a natural in 0..15 (R40). -/
  | flipBit (offset : Nat) (pos : Nat)
  /-- SET_TRACE (R73): set the diagnostic trace flag. -/
  | setTrace (en : Bool)
  /-- CREATE_BANK (R72): zero the bank. -/
  | createBank
  deriving DecidableEq, Repr

end Sys2Proof
end

