-- ==== Sys2Proof/Machine/Dispatch.lean ====
section
/-! DEFINITION. One arm per command: the meaning of each. -/

namespace Sys2Proof.Machine

def exec (i : Instr) (s : State) : Host.Outcome State Fault Refusal :=
  match i with
  | .write o b => Sys2Proof.Machine.execWrite o b s
  | .read o => Sys2Proof.Machine.execRead o s
  | .flipBit o p => Sys2Proof.Machine.execFlipBit o p s
  | .setTrace en => Sys2Proof.Machine.execSetTrace en s
  | .createBank => Sys2Proof.Machine.execCreateBank s

end Sys2Proof.Machine
end

