-- ==== Sys2Proof/WellFormed.lean ====
section
/-! DEFINITION. Which commands a command word can express: every operand fits its field (R39, R40). The byte and
the enable bit fit by their types. An offset that fits its field may still be out of the bank, and a position that
fits may still be 13..15: the block answers those with a bounds response (R26, R69). -/

namespace Sys2Proof

/-- The offset fits the offset field: `o` is in `0 .. 2^OFFSET_W - 1` (R40). -/
abbrev offsetFits (offsetW o : Nat) : Prop := o < 2 ^ offsetW

/-- The bit position fits the position field: `p` is in `0 .. 15` (R40, `POS_W` = 4). -/
abbrev posFits (p : Nat) : Prop := p < 16

/-- Every operand of the command fits its field. -/
def Instr.wf (offsetW : Nat) : Instr → Bool
  | .write o _ => decide (offsetFits offsetW o)
  | .read o => decide (offsetFits offsetW o)
  | .flipBit o p => decide (offsetFits offsetW o) && decide (posFits p)
  | .setTrace _ => true
  | .createBank => true

end Sys2Proof
end

