-- ==== Sys2Proof/Decode.lean ====
section
/-! DEFINITION. From command words to commands (R39 to R45) and back, and the assembler of R46.
A command word is a natural number: bit 0 is the least significant bit of its `op` field (log 6). -/

namespace Sys2Proof

/-! ### Fields of a command word -/

/-- `w[lo+n-1 : lo]` as a natural (R6, R40: unsigned, no scaling, no shift). -/
def bitField (w lo n : Nat) : Nat := w / 2 ^ lo % 2 ^ n

/-- `op = cmd[2:0]` (R39). -/
def opField (w : Nat) : Nat := bitField w 0 3

/-- `p = zext(cmd[6:3])` (R40). -/
def posField (w : Nat) : Nat := bitField w 3 4

/-- `en = cmd[7]` (R40). -/
def enField (w : Nat) : Bool := bitField w 7 1 == 1

/-- `b = cmd[15:8]` (R40). -/
def dataField (w : Nat) : Byte := BitVec.ofNat 8 (bitField w 8 8)

/-- `o = zext(cmd[16+OFFSET_W-1:16])` (R40). -/
def offsetField (offsetW w : Nat) : Nat := bitField w 16 offsetW

/-! ### The decoder -/

/-- What a number at the command port stands for. -/
inductive Decoded where
  /-- A command of the opcode map (R41). -/
  | instr (i : Instr)
  /-- A command word whose `op` is 0b000, 0b110 or 0b111 (R42): the block answers `IllegalCommand`. -/
  | illegalOp (op : Nat)
  /-- No command word at all: the number does not fit `CMD_W` bits (R39, R45; log 6). -/
  | tooWide
  deriving DecidableEq, Repr

/-- The command a decoder result holds, if it holds one. -/
def Decoded.toOption : Decoded → Option Instr
  | .instr i => some i
  | .illegalOp _ => none
  | .tooWide => none

/-- The opcode map (R41): the match is on `op` alone; the fields R39 gives for that op are then read (R45). -/
def decodeOp (offsetW w : Nat) : Nat → Decoded
  | 0b001 => .instr (.write (offsetField offsetW w) (dataField w))
  | 0b010 => .instr (.read (offsetField offsetW w))
  | 0b011 => .instr (.flipBit (offsetField offsetW w) (posField w))
  | 0b100 => .instr (.setTrace (enField w))
  | 0b101 => .instr .createBank
  | op => .illegalOp op

/-- The decoder, total on every number (R41, R42, R45). -/
def decode (offsetW w : Nat) : Decoded :=
  if w < 2 ^ cmdWidth offsetW then decodeOp offsetW w (opField w) else .tooWide

/-! ### The encoder -/

/-- A command word with the given fields (R39). -/
def packWord (op pos en data offset : Nat) : Nat :=
  op + 2 ^ 3 * pos + 2 ^ 7 * en + 2 ^ 8 * data + 2 ^ 16 * offset

/-- The command word of a command, the fields it does not use being 0 (R41, R46). -/
def encode : Instr → Nat
  | .write o b => packWord 0b001 0 0 b.toNat o
  | .read o => packWord 0b010 0 0 0 o
  | .flipBit o p => packWord 0b011 p 0 0 o
  | .setTrace en => packWord 0b100 0 en.toNat 0 0
  | .createBank => packWord 0b101 0 0 0 0

/-- The decoder on a row of the opcode table: `w` has `nbits` bits, the bits above are 0, and the offset field has the
width that `State.reset` has (log 1). -/
def decodeTableWord (nbits w : Nat) : Option Instr :=
  (decode Params.vectors.offsetW (w % 2 ^ nbits)).toOption

/-! ### The assembler (R46) -/

/-- One line of the assembler's syntax, its operands still unchecked numbers. -/
inductive AsmLine where
  | create
  | trace (en : Nat)
  | write (offset byte : Nat)
  | read (offset : Nat)
  | flip (offset pos : Nat)
  /-- `.word <value>`: the raw command word. -/
  | word (value : Nat)
  deriving DecidableEq, Repr

/-- An operand that must lie below `bound` to fit its field. -/
def fitting (bound : Nat) (v word : Nat) : Option Nat := if v < bound then some word else none

/-- The command word of a line; `none` where an operand does not fit its field (R46: "an offset `>= 2^OFFSET_W`, a byte
> 255, a pos > 15 or an en > 1"; a raw word must fit `CMD_W` bits, log 10). -/
def assemble (offsetW : Nat) : AsmLine → Option Nat
  | .create => some (packWord 0b101 0 0 0 0)
  | .trace en => fitting 2 en (packWord 0b100 0 en 0 0)
  | .write o b => (fitting (2 ^ offsetW) o (packWord 0b001 0 0 b o)).bind (fitting 256 b)
  | .read o => fitting (2 ^ offsetW) o (packWord 0b010 0 0 0 o)
  | .flip o p => (fitting (2 ^ offsetW) o (packWord 0b011 p 0 0 o)).bind (fitting 16 p)
  | .word v => fitting (2 ^ cmdWidth offsetW) v v

/-- The value of a digit in the given base (10 or 16); letters of either case (log 10). -/
def digitValue (base : Nat) (c : Char) : Option Nat :=
  let n := c.toNat
  if 48 ≤ n ∧ n ≤ 57 then some (n - 48)
  else if base = 16 ∧ 97 ≤ n ∧ n ≤ 102 then some (n - 87)
  else if base = 16 ∧ 65 ≤ n ∧ n ≤ 70 then some (n - 55)
  else none

/-- The number that the rest of a digit string makes with the value `acc` before it. -/
def digitsFrom (base acc : Nat) : List Char → Option Nat
  | [] => some acc
  | c :: cs =>
    match digitValue base c with
    | some d => digitsFrom base (base * acc + d) cs
    | none => none

/-- A digit string of at least one digit. -/
def digits (base : Nat) : List Char → Option Nat
  | [] => none
  | c :: cs => digitsFrom base 0 (c :: cs)

/-- "Numbers are decimal, or hexadecimal with prefix `0x`" (R46). -/
def parseNumber : List Char → Option Nat
  | '0' :: 'x' :: ds => digits 16 ds
  | ds => digits 10 ds

/-- A finished token, unless it is empty. -/
def flushToken (cur : List Char) : List (List Char) := if cur.isEmpty then [] else [cur]

/-- The tokens of a line, `cur` being the token under way: blanks part tokens, a comma is a token of its own, and a
comment starts with `;` (R46; log 10). -/
def tokens (cur : List Char) : List Char → List (List Char)
  | [] => flushToken cur
  | c :: cs =>
    if c = ';' then flushToken cur
    else if c = ' ' ∨ c = '\t' ∨ c = '\r' then flushToken cur ++ tokens [] cs
    else if c = ',' then flushToken cur ++ [','] :: tokens [] cs
    else tokens (cur ++ [c]) cs

/-- A line with one operand. -/
def oneOperand (mk : Nat → AsmLine) (a : List Char) : Option AsmLine := (parseNumber a).map mk

/-- A line with two operands. -/
def twoOperands (mk : Nat → Nat → AsmLine) (a b : List Char) : Option AsmLine :=
  (parseNumber a).bind fun x => (parseNumber b).map (mk x)

/-- One command of R46's table from its tokens; there are no pseudo-commands. -/
def parseTokens : List (List Char) → Option AsmLine
  | [m] => if m = ['c', 'r', 'e', 'a', 't', 'e'] then some .create else none
  | [m, a] =>
    if m = ['t', 'r', 'a', 'c', 'e'] then oneOperand .trace a
    else if m = ['r', 'e', 'a', 'd'] then oneOperand .read a
    else if m = ['.', 'w', 'o', 'r', 'd'] then oneOperand .word a
    else none
  | [m, a, sep, b] =>
    if sep = [','] then
      if m = ['w', 'r', 'i', 't', 'e'] then twoOperands .write a b
      else if m = ['f', 'l', 'i', 'p'] then twoOperands .flip a b
      else none
    else none
  | _ => none

/-- The command words of one line of text: none for a line that is blank or only a comment, one for a command
("One command per line", R46); `none` where the assembler refuses the line. -/
def assembleLine (offsetW : Nat) (line : List Char) : Option (List Nat) :=
  match tokens [] line with
  | [] => some []
  | ts => ((parseTokens ts).bind (assemble offsetW)).map fun w => [w]

/-- A text as its lines, `cur` being the line under way. -/
def textLines (cur : List Char) : List Char → List (List Char)
  | [] => [cur]
  | c :: cs => if c = '\n' then cur :: textLines [] cs else textLines (cur ++ [c]) cs

/-- The command words of the lines, in order; `none` where one line is refused. -/
def assembleLines (offsetW : Nat) : List (List Char) → Option (List Nat)
  | [] => some []
  | l :: ls => (assembleLine offsetW l).bind fun ws => (assembleLines offsetW ls).map fun rest => ws ++ rest

/-- A program's command words from its text (R16, R46). -/
def assembleText (offsetW : Nat) (text : List Char) : Option (List Nat) :=
  assembleLines offsetW (textLines [] text)

end Sys2Proof
end

