-- ==== Sys2Proof/Machine/Fetch.lean ====
section
/-! DEFINITION. What the host presents next. The block fetches nothing (R16, R35): the host presents one command word,
or hardware reset, and waits for the response (R92). -/

namespace Sys2Proof.Machine

/-- What a step finds at the block's port; `rest` is the state once the input has been taken. -/
inductive Fetched where
  /-- The host has nothing left to present (R93). -/
  | nothing
  /-- Hardware reset (R89). -/
  | hardReset (rest : State)
  /-- A number that is no command word (R39; log 6). -/
  | notACommandWord
  /-- A command that the block cannot take before its first reset (R23; log 4). -/
  | tooEarly
  /-- A command word with an unassigned `op` (R42). -/
  | illegal (rest : State)
  /-- A command (R41). -/
  | instr (i : Instr) (rest : State)
  deriving DecidableEq, Repr

/-- Whether the block takes this command: after its first reset every one, before it only CREATE_BANK, which is the same
update as a reset (R23, R72, R89, R91; log 4). -/
def State.takes (s : State) (i : Instr) : Bool := s.hasBeenReset || i == .createBank

/-- What the decoder makes of a command word, for the block as it stands. -/
def present (w : Nat) (s : State) : Fetched :=
  match decode s.params.offsetW w with
  | .tooWide => .notACommandWord
  | .illegalOp _ => if s.hasBeenReset then .illegal s else .tooEarly
  | .instr i => if s.takes i then .instr i s else .tooEarly

/-- The host's next input. -/
def fetch (s : State) : Fetched :=
  match s.host.pending with
  | [] => .nothing
  | .reset :: rest => .hardReset (s.withPending rest)
  | .command w :: rest => present w (s.withPending rest)

/-- Hardware reset as a step: the reset update, no response (R89; log 5). -/
def hardwareReset (s : State) : Host.Outcome State Fault Refusal := .next s.resetBlock

/-- The answer to a command word with an unassigned `op` (R42): no state change, `IllegalCommand`. -/
def illegalCommand (s : State) : Host.Outcome State Fault Refusal := raise .illegalCommand s

/-- The input `w`, of `nbits` bits and 0 above them, as what the host presents next. -/
def placeCommand (s : State) (nbits w : Nat) : State :=
  s.withPending (.command (w % 2 ^ nbits) :: s.host.pending)

end Sys2Proof.Machine
end

