-- ==== Sys2Proof/Machine/Step.lean ====
section
/-! DEFINITION. One step: the host presents one input, and the block performs it as one atomic step (R2, R28, R98). -/

namespace Sys2Proof.Machine

/-- One step of the machine. -/
def step (s : State) : Host.Outcome State Fault Refusal :=
  match fetch s with
  | .nothing => .refused .noInput
  | .hardReset rest => hardwareReset rest
  | .notACommandWord => .refused .notACommandWord
  | .tooEarly => .refused .beforeReset
  | .illegal rest => illegalCommand rest
  | .instr i rest => exec i rest

/-- The state in which the host presents the word `w` of `nbits` bits next. The block loads no program itself: its host
holds it (R16), and this stands for the host's doing so (log 3). -/
def State.withFetchWord (s : State) (nbits w : Nat) : State := placeCommand s nbits w

end Sys2Proof.Machine
end

