-- ==== Sys2Proof/Safety.lean ====
section
/-! DEFINITION. What counts as a well-formed state, a ready one and a safe run, in the terms the statements use. -/

namespace Sys2Proof

/-- Whether a command reaches the pair at an offset (R19: WRITE, READ and FLIP_BIT reach their own, CREATE_BANK all). -/
def Instr.reaches (i : Instr) (a : Nat) : Prop :=
  match i with
  | .write o _ => o = a
  | .read o => o = a
  | .flipBit o _ => o = a
  | .setTrace _ => False
  | .createBank => True

end Sys2Proof

namespace Sys2Proof.Machine

/-- The bank is in its one form: both arrays canonical and inside the offset space (R19), and the unused bits of every
code entry 0 (R14). -/
abbrev Bank.wf (memSize : Nat) (b : Bank) : Prop :=
  b.dataMemory.wf ∧ b.codeMemory.wf ∧ b.dataMemory.within memSize ∧ b.codeMemory.within memSize ∧
  ∀ x ∈ b.codeMemory, x.2.extractLsb' 0 3 = 0

/-- What the host may hold ready: reset, or a word of at most `CMD_W` bits (R39). -/
def HostInput.fits (offsetW : Nat) : HostInput → Bool
  | .command w => decide (w < 2 ^ cmdWidth offsetW)
  | .reset => true

/-- The invariant of the machine. -/
abbrev State.Inv (s : State) : Prop :=
  s.params.wf ∧ s.bank.wf s.params.memSize ∧ ∀ x ∈ s.host.pending, x.fits s.params.offsetW = true

/-- The pair at `o` is valid: `code_memory[o] = computeCodeword(data_memory[o])` (R13; 00_scope.md, glossary). -/
abbrev State.validAt (s : State) (o : Nat) : Prop := validPair (s.dRead o) (s.cRead o)

/-- The 13-bit encoded word stored at an offset (R9). -/
def State.wordAt (s : State) (o : Nat) : Word13 := encodedWord (s.dRead o) (s.cRead o)

/-- The response word received last. -/
def State.lastResponse (s : State) : Option ResponseWord := s.host.responses.getLast?

/-- The pair at an offset is the same in both states. -/
abbrev State.samePair (s t : State) (a : Nat) : Prop := t.dRead a = s.dRead a ∧ t.cRead a = s.cRead a

/-- From `s` to `t` the host received exactly the response word `r`, and neither what it has still to present nor the
parameters nor the standing of the block towards its first reset changed. -/
abbrev State.answered (s t : State) (r : ResponseWord) : Prop :=
  t.host.responses = s.host.responses ++ [r] ∧ t.host.pending = s.host.pending ∧ t.params = s.params ∧
  t.hasBeenReset = s.hasBeenReset

/-- Commands performed one after the other, in order (R32). -/
def execAll : List Instr → State → Host.Outcome State Fault Refusal
  | [], s => .next s
  | i :: is, s =>
    match exec i s with
    | .next t => execAll is t
    | .fault r => .fault r
    | .refused r => .refused r

/-- The error pattern that flips at the positions `ps` make together: each flip changes `e` to `e XOR (p)` (R71). -/
def flipsPattern (ps : List Nat) : Word13 := ps.foldl (fun e p => e ^^^ positionMask p) 0

/-- How many of the inputs are commands. -/
def commandCount (l : List HostInput) : Nat := l.countP fun x => match x with
  | .command _ => true
  | .reset => false

end Sys2Proof.Machine
end

