-- ==== Sys2Proof/Certificates/Slice0/Obligations.lean ====
section
/-! DEFINITION. The statements for the provers, from the numbered rules of the spec. Each docstring names the rule or
section it formalises. -/

open Sys2Proof Sys2Proof.Machine

/-! ### Encodings (30_encoding.md) -/

/-- Decode and encode agree, on every well-formed command with every operand value its fields admit
(30_encoding.md sections 2 and 3). -/
def Obligations.DecodeOfEncode : Prop :=
  ∀ (W : Nat) (i : Instr), i.wf W = true → encode i < 2 ^ (16 + W) ∧ decode W (encode i) = .instr i

/-- R40, R41: in every command word `op` alone selects the command, and each operand is its field, unsigned. The word is
written out here as the sum of its fields, whatever the fields that the command does not use hold. -/
def Obligations.DecodeReadsTheFieldsOfEveryWord : Prop :=
  ∀ (W o p : Nat) (en : Bool) (b : Byte), o < 2 ^ W → p < 16 →
    let fields := 8 * p + 128 * en.toNat + 256 * b.toNat + 65536 * o
    decode W (1 + fields) = .instr (.write o b) ∧ decode W (2 + fields) = .instr (.read o) ∧
    decode W (3 + fields) = .instr (.flipBit o p) ∧ decode W (4 + fields) = .instr (.setTrace en) ∧
    decode W (5 + fields) = .instr .createBank ∧
    decode W fields = .illegalOp 0 ∧ decode W (6 + fields) = .illegalOp 6 ∧ decode W (7 + fields) = .illegalOp 7

/-- Command words of 95_test_vectors.md (OFFSET_W = 8) decode to the commands they are listed for. -/
def Obligations.ListedWordsDecode : Prop :=
  decode 8 0x03A501 = .instr (.write 3 0xA5) ∧ decode 8 0x03A5F9 = .instr (.write 3 0xA5) ∧
  decode 8 0x0F0002 = .instr (.read 15) ∧ decode 8 0x02006B = .instr (.flipBit 2 13) ∧
  decode 8 0x000084 = .instr (.setTrace true) ∧ decode 8 0xFFFFFD = .instr .createBank ∧
  decode 8 0x100007 = .illegalOp 7 ∧ decode 8 0x000000 = .illegalOp 0

/-- Every command the decoder reads is well-formed: its operands are values of their fields (R40). That the number fits the
port's width rests on the decoder's refusing wider ones, which is the model's choice (log 6). -/
def Obligations.DecodedCommandsAreWellFormed : Prop :=
  ∀ (W w : Nat) (i : Instr), decode W w = .instr i → i.wf W = true ∧ w < 2 ^ (16 + W)

/-- Every word of the port is a command or has one of the unassigned `op` values 0b000, 0b110 and 0b111, and nothing else
is a word of the port (R41, R42; the port's width as a limit: log 6). -/
def Obligations.EveryWordIsACommandOrIllegal : Prop :=
  ∀ (W w : Nat),
    (decode W w = .tooWide ↔ 2 ^ (16 + W) ≤ w) ∧
    (w < 2 ^ (16 + W) → (w % 8 = 0 ∨ w % 8 = 6 ∨ w % 8 = 7) → decode W w = .illegalOp (w % 8)) ∧
    (w < 2 ^ (16 + W) → w % 8 ≠ 0 → w % 8 ≠ 6 → w % 8 ≠ 7 → ∃ i, decode W w = .instr i)

/-- The assembler refuses exactly the operands that do not fit their fields (30_encoding.md section 5; that a raw word must
fit the port is the model's, log 10). -/
def Obligations.AssemblerRefusesWhatDoesNotFit : Prop :=
  ∀ (W o b p en v : Nat),
    (assemble W (.write o b) = none ↔ 2 ^ W ≤ o ∨ 255 < b) ∧ (assemble W (.read o) = none ↔ 2 ^ W ≤ o) ∧
    (assemble W (.flip o p) = none ↔ 2 ^ W ≤ o ∨ 15 < p) ∧ (assemble W (.trace en) = none ↔ 1 < en) ∧
    assemble W .create ≠ none ∧ (assemble W (.word v) = none ↔ 2 ^ (16 + W) ≤ v)

/-- A line that the assembler accepts makes the word of exactly its command (30_encoding.md section 5). -/
def Obligations.AssembledLinesDecodeToTheirCommands : Prop :=
  ∀ (W o b p en w : Nat),
    (assemble W (.write o b) = some w → decode W w = .instr (.write o (BitVec.ofNat 8 b)) ∧ b < 256) ∧
    (assemble W (.read o) = some w → decode W w = .instr (.read o)) ∧
    (assemble W (.flip o p) = some w → decode W w = .instr (.flipBit o p)) ∧
    (assemble W (.trace en) = some w → decode W w = .instr (.setTrace (en == 1)) ∧ en < 2) ∧
    (assemble W .create = some w → decode W w = .instr .createBank) ∧
    (assemble W (.word o) = some w → w = o)

/-- R43: the fields a command does not use change neither state nor response: two words with the same `op` and the same
used fields have the same outcome as the host's next input, in every state of the block. -/
def Obligations.UnusedFieldsChangeNothing : Prop :=
  ∀ (s : State) (rest : List HostInput) (o o' p p' : Nat) (en en' : Bool) (b b' : Byte),
    o < 2 ^ s.params.offsetW → o' < 2 ^ s.params.offsetW → p < 16 → p' < 16 →
    let word (op p : Nat) (en : Bool) (b : Byte) (o : Nat) := op + 8 * p + 128 * en.toNat + 256 * b.toNat + 65536 * o
    let run (w : Nat) := step (s.withPending (.command w :: rest))
    run (word 1 p en b o) = run (word 1 p' en' b o) ∧
    run (word 2 p en b o) = run (word 2 p' en' b' o) ∧
    run (word 3 p en b o) = run (word 3 p en' b' o) ∧
    run (word 4 p en b o) = run (word 4 p' en b' o') ∧
    run (word 5 p en b o) = run (word 5 p' en' b' o')

/-! ### A step (00_scope.md, 10_state.md, 60_exceptions.md, 70_reset_and_hazards.md) -/

/-- A step runs the decoded command: the host's next input is taken, and the step is `exec` of it (R2, R16; the command
must be one the block takes, see log 4). -/
def Obligations.StepRunsTheDecodedCommand : Prop :=
  ∀ (s : State) (w : Nat) (rest : List HostInput) (i : Instr),
    s.host.pending = .command w :: rest → decode s.params.offsetW w = .instr i →
    (s.hasBeenReset = true ∨ i = .createBank) → step s = exec i (s.withPending rest)

/-- R42: after the first reset (R23), a word whose `op` is 0b000, 0b110 or 0b111 changes no state and is answered
`IllegalCommand`, whatever its other fields hold. -/
def Obligations.IllegalCommandsAreAnswered : Prop :=
  ∀ (s : State) (w : Nat) (rest : List HostInput),
    s.host.pending = .command w :: rest → w < 2 ^ (16 + s.params.offsetW) → s.hasBeenReset = true →
    (w % 8 = 0 ∨ w % 8 = 6 ∨ w % 8 = 7) →
    step s = .next { s with host := { pending := rest, responses := s.host.responses ++ [0x0007] } }

/-- Before the first reset a command is refused (10_state.md section 7). CREATE_BANK is performed there: that it may stand
for the first reset is read from 70_reset_and_hazards.md section 1 and is the model's inference (log 4). -/
def Obligations.CommandsBeforeTheFirstReset : Prop :=
  ∀ (s : State) (w : Nat) (rest : List HostInput),
    s.host.pending = .command w :: rest → w < 2 ^ (16 + s.params.offsetW) → s.hasBeenReset = false →
    (w % 8 ≠ 5 → step s = .refused .beforeReset) ∧
    (w % 8 = 5 → ∃ t, step s = .next t ∧ t.hasBeenReset = true ∧ t.bank = Bank.zero ∧
      t.host.responses = s.host.responses ++ [0x0000])

/-- R89: hardware reset puts every piece of the block's state at its reset value; it is the same update as CREATE_BANK. That
it is an input of the host which takes one step and has no response is the model's choice (log 5). -/
def Obligations.HardwareResetZeroesTheBlock : Prop :=
  ∀ (s : State) (rest : List HostInput), s.host.pending = .reset :: rest →
    ∃ t, step s = .next t ∧ (∀ o, t.dRead o = 0 ∧ t.cRead o = 0) ∧ t.bank.traceEnable = false ∧
      (∀ u, exec .createBank s = .next u → t.bank = u.bank) ∧
      t.hasBeenReset = true ∧ t.params = s.params ∧ t.host = { s.host with pending := rest }

/-- R22: the values after reset and after every CREATE_BANK; every entry of a fresh bank is a valid pair. -/
def Obligations.ResetValues : Prop :=
  (∀ (p : Params) (o : Nat), (State.resetWith p).dRead o = 0 ∧ (State.resetWith p).cRead o = 0 ∧
    (State.resetWith p).bank.traceEnable = false ∧ (State.resetWith p).validAt o) ∧
  (∀ (s t : State) (o : Nat), exec .createBank s = .next t →
    t.dRead o = 0 ∧ t.cRead o = 0 ∧ t.bank.traceEnable = false ∧ t.validAt o)

/-- With nothing left to present the run has ended: there is no further step (70_reset_and_hazards.md section 2; that the
step is refused is the model's choice, log 3). And a number that does not fit the port is refused (the model's, log 6). -/
def Obligations.StepsThatAreNoCommand : Prop :=
  (∀ s : State, s.host.pending = [] → step s = .refused .noInput) ∧
  (∀ (s : State) (w : Nat) (rest : List HostInput), s.host.pending = .command w :: rest →
    2 ^ (16 + s.params.offsetW) ≤ w → step s = .refused .notACommandWord)

/-! ### The codeword encoder (40_encoder_write.md) -/

/-- R47: the five parities of a data byte and the unused bits, by the bits of the byte itself (`d_i = b[8-i]`). -/
def Obligations.CodewordFollowsTheParityGroups : Prop :=
  ∀ b : Byte,
    let c := computeCodeword b
    c.getLsbD 6 = (b.getLsbD 1 ^^ b.getLsbD 3 ^^ b.getLsbD 4 ^^ b.getLsbD 6 ^^ b.getLsbD 7) ∧
    c.getLsbD 5 = (b.getLsbD 1 ^^ b.getLsbD 2 ^^ b.getLsbD 4 ^^ b.getLsbD 5 ^^ b.getLsbD 7) ∧
    c.getLsbD 4 = (b.getLsbD 0 ^^ b.getLsbD 4 ^^ b.getLsbD 5 ^^ b.getLsbD 6) ∧
    c.getLsbD 3 = (b.getLsbD 0 ^^ b.getLsbD 1 ^^ b.getLsbD 2 ^^ b.getLsbD 3) ∧
    c.getLsbD 7 = (parity b ^^ c.getLsbD 6 ^^ c.getLsbD 5 ^^ c.getLsbD 4 ^^ c.getLsbD 3) ∧
    c.extractLsb' 0 3 = 0

/-- R49: a byte with its codeword has even parity over the 13 bits, and so has each distributed group with its parity
bit. -/
def Obligations.EncodedWordsHaveEvenParity : Prop :=
  ∀ b : Byte,
    let w := encodedWord b (computeCodeword b)
    let at_ (k : Nat) := w.getLsbD (12 - k)
    parity w = false ∧
    (at_ 1 ^^ at_ 3 ^^ at_ 5 ^^ at_ 7 ^^ at_ 9 ^^ at_ 11) = false ∧
    (at_ 2 ^^ at_ 3 ^^ at_ 6 ^^ at_ 7 ^^ at_ 10 ^^ at_ 11) = false ∧
    (at_ 4 ^^ at_ 5 ^^ at_ 6 ^^ at_ 7 ^^ at_ 12) = false ∧
    (at_ 8 ^^ at_ 9 ^^ at_ 10 ^^ at_ 11 ^^ at_ 12) = false

/-- R50: the closed form of pW: d1, d2, d3, d5, d6 and d8, that is b[7], b[6], b[5], b[3], b[2] and b[0]. -/
def Obligations.ClosedFormOfTheOverallParity : Prop :=
  ∀ b : Byte, (computeCodeword b).getLsbD 7 =
    (b.getLsbD 7 ^^ b.getLsbD 6 ^^ b.getLsbD 5 ^^ b.getLsbD 3 ^^ b.getLsbD 2 ^^ b.getLsbD 0)

/-- R51: the codeword of the XOR of two bytes is the XOR of their codewords; the basis, from d1 to d8; and so a codeword is
the XOR of the basis codewords of the set bits of the byte. -/
def Obligations.CodewordIsLinear : Prop :=
  let basis : List Byte := [0xE0, 0xD0, 0xB0, 0x70, 0xC8, 0xA8, 0x68, 0x98]
  (∀ a b : Byte, computeCodeword (a ^^^ b) = computeCodeword a ^^^ computeCodeword b) ∧
  ([0x80, 0x40, 0x20, 0x10, 0x08, 0x04, 0x02, 0x01] : List Byte).map computeCodeword = basis ∧
  ∀ b : Byte, computeCodeword b =
    ((List.range 8).zip basis).foldl (fun acc x => if b.getLsbD (7 - x.1) then acc ^^^ x.2 else acc) 0

/-! ### WRITE (40_encoder_write.md) -/

/-- R54: WRITE replaces the pair at its offset by the byte and its codeword and responds NoError; an offset outside the bank
is answered BoundsOffset with no state change. Everything else is as before. -/
def Obligations.WriteStoresTheByteAndItsCodeword : Prop :=
  ∀ (s : State) (o : Nat) (b : Byte),
    (o < s.params.memSize → ∃ t, exec (.write o b) s = .next t ∧ t.dRead o = b ∧ t.cRead o = computeCodeword b ∧
      (∀ a, a ≠ o → s.samePair t a) ∧ t.bank.traceEnable = s.bank.traceEnable ∧ s.answered t 0x0000) ∧
    (s.params.memSize ≤ o → ∃ t, exec (.write o b) s = .next t ∧ t.bank = s.bank ∧ s.answered t 0x0005)

/-- Writing the same byte twice leaves the state of writing it once (20_memory.md section 4: "WRITE is idempotent"). -/
def Obligations.WriteIsIdempotent : Prop :=
  ∀ (s t u : State) (o : Nat) (b : Byte),
    exec (.write o b) s = .next t → exec (.write o b) t = .next u → u.bank = t.bank

/-! ### READ (41_decoder_read.md) -/

/-- R56, R58, R59, R60 and R61: READ of an offset in the bank. The syndrome is the weighted sum of the parity mismatches
between the fresh codeword of the current data byte and the stored code byte; the match bit compares the stored overall
parity with the parity of the data bits and the four stored parities; the five rows of the table give kind, syndrome and
byte; the bits that a single-bit error is corrected at are those of the data positions 3, 5, 6, 7, 9, 10, 11 and 12. The one
state write is the overall parity bit, on ParityBitError. An offset outside the bank is answered BoundsOffset. -/
def Obligations.ReadClassifiesByTheTable : Prop :=
  ∀ (s : State) (o : Nat),
    let d := s.dRead o
    let c := s.cRead o
    let f := computeCodeword d
    let mismatch (i : Nat) := (f.getLsbD (7 - i) ^^ c.getLsbD (7 - i)).toNat
    let S := mismatch 1 + 2 * mismatch 2 + 4 * mismatch 3 + 8 * mismatch 4
    let pwr := parity d ^^ c.getLsbD 6 ^^ c.getLsbD 5 ^^ c.getLsbD 4 ^^ c.getLsbD 3
    let m := c.getLsbD 7 == pwr
    let word (kind byte : Nat) : ResponseWord := BitVec.ofNat 16 (kind + 16 * S + 256 * byte)
    let correction := [0, 0, 0, 0x80, 0, 0x40, 0x20, 0x10, 0, 0x08, 0x04, 0x02, 0x01].getD S 0
    (o < s.params.memSize → ∃ t r, exec (.read o) s = .next t ∧ s.answered t r ∧
      (∀ a, t.dRead a = s.dRead a) ∧ (∀ a, a ≠ o → t.cRead a = s.cRead a) ∧
      t.bank.traceEnable = s.bank.traceEnable ∧
      (S = 0 → m = true → r = word 0 d.toNat ∧ t.cRead o = c) ∧
      (S = 0 → m = false → r = word 1 d.toNat ∧
        ∀ i < 8, (t.cRead o).getLsbD i = if i = 7 then pwr else c.getLsbD i) ∧
      (S ≠ 0 → m = true → r = word 3 d.toNat ∧ t.cRead o = c) ∧
      (1 ≤ S → S ≤ 12 → m = false → r = word 2 (d.toNat ^^^ correction) ∧ t.cRead o = c) ∧
      (13 ≤ S → m = false → r = word 4 d.toNat ∧ t.cRead o = c)) ∧
    (s.params.memSize ≤ o → ∃ t, exec (.read o) s = .next t ∧ t.bank = s.bank ∧ s.answered t 0x0005)

/-- R62: READ reports NoError exactly for a valid pair; and after a self-heal the pair is valid and the next READ reports
NoError. The unused bits of the stored code byte are 0, which is an invariant (R14, UnusedCodeBitsStayZero). -/
def Obligations.NoErrorExactlyForValidPairs : Prop :=
  ∀ (s t : State) (o : Nat), o < s.params.memSize → (s.cRead o).extractLsb' 0 3 = 0 → exec (.read o) s = .next t →
    (t.lastResponse.map respKind = some 0 ↔ s.validAt o) ∧
    (t.lastResponse.map respKind = some 1 →
      t.validAt o ∧ ∃ u, exec (.read o) t = .next u ∧ u.lastResponse = some (responseWord .noError 0 (s.dRead o)))

/-- R63, on stored pairs: the syndrome of a valid pair with an error pattern applied is the XOR of the pattern's positions,
and the overall parity matches exactly when the pattern has an even number of positions. The numbering of the mask is the
model's choice (log 8). -/
def Obligations.SyndromeAndMatchOfAnErrorPattern : Prop :=
  ∀ (d0 : Byte) (e : Word13),
    let x := applyPattern e (d0, computeCodeword d0)
    syndrome x.1 x.2 = xorOfPositions e ∧ (parityMatches x.1 x.2 = true ↔ popcount e % 2 = 0)

/-- The same on the machine, whatever flips, in whatever order, were injected at a valid pair (41_decoder_read.md section
4): the next READ reports the XOR of the flipped positions as its syndrome and the kind of the table, and the byte is the
stored one, corrected for a single-bit error. -/
def Obligations.ReadReportsTheInjectedFlips : Prop :=
  ∀ (s : State) (o : Nat) (ps : List Nat), o < s.params.memSize → s.validAt o → (∀ p ∈ ps, p ≤ 12) →
    ∃ t u, execAll (ps.map fun p => .flipBit o p) s = .next t ∧ exec (.read o) t = .next u ∧
      (let e := flipsPattern ps
       let S := xorOfPositions e
       let k := classify S (popcount e % 2 == 0)
       (t.dRead o, t.cRead o) = applyPattern e (s.dRead o, s.cRead o) ∧
       u.lastResponse = some (responseWord k S (returnedByte k S (t.dRead o))))

/-- R64: kind and syndrome depend on the error pattern only, and the byte is the data byte XOR the pattern's data part, then
corrected as the kind and the syndrome say. -/
def Obligations.ReadResultDependsOnlyOnThePattern : Prop :=
  ∀ (d0 d1 : Byte) (e : Word13),
    let x := applyPattern e (d0, computeCodeword d0)
    let y := applyPattern e (d1, computeCodeword d1)
    let z := applyPattern e (0, 0)
    pairKind x.1 x.2 = pairKind y.1 y.2 ∧ syndrome x.1 x.2 = syndrome y.1 y.2 ∧
    readResponse x.1 x.2 = responseWord (pairKind x.1 x.2) (syndrome x.1 x.2)
      (returnedByte (pairKind x.1 x.2) (syndrome x.1 x.2) (d0 ^^^ z.1))

/-- 41_decoder_read.md section 4 (the source's "Round-trip"): a WRITE and a READ of one offset report NoError and the
byte. -/
def Obligations.WriteThenReadReturnsTheByte : Prop :=
  ∀ (s : State) (o : Nat) (b : Byte), o < s.params.memSize →
    ∃ t, execAll [.write o b, .read o] s = .next t ∧ t.lastResponse = some (responseWord .noError 0 b)

/-- 41_decoder_read.md section 4 (the source's "Single-bit injection" as corrected by 90_conflicts.md C2): after one flip at
position 1..12 of a written byte, READ reports a single-bit error at exactly that position and returns the byte as written
(that the byte is corrected is decision D10); a flip at position 0 is reported as ParityBitError and healed. -/
def Obligations.SingleFlipIsLocatedAndCorrected : Prop :=
  ∀ (s : State) (o p : Nat) (b : Byte), o < s.params.memSize → p ≤ 12 →
    ∃ t, execAll [.write o b, .flipBit o p, .read o] s = .next t ∧
      (1 ≤ p → t.lastResponse = some (responseWord .singleBitError (BitVec.ofNat 4 p) b)) ∧
      (p = 0 → t.lastResponse = some (responseWord .parityBitError 0 b) ∧ t.validAt o ∧ t.dRead o = b)

/-- 41_decoder_read.md section 4 (the source's "Double-bit injection"): two flips at different positions of a written byte are
reported as a double-bit error, with the XOR of the positions as syndrome and the stored byte uncorrected. -/
def Obligations.DoubleFlipIsDetected : Prop :=
  ∀ (s : State) (o p q : Nat) (b : Byte), o < s.params.memSize → p < q → q ≤ 12 →
    ∃ t, execAll [.write o b, .flipBit o p, .flipBit o q, .read o] s = .next t ∧
      t.lastResponse = some (responseWord .doubleBitError (BitVec.ofNat 4 (p ^^^ q)) (t.dRead o))

/-- R67: UnknownError is returned exactly when S is in 13..15 and the overall parity does not match; a valid pair with an
error pattern shows it only where the pattern has an odd number of positions, at least 3. The READ that returns it goes on. -/
def Obligations.UnknownErrorNeedsThreeFlips : Prop :=
  (∀ (s t : State) (o : Nat), o < s.params.memSize → exec (.read o) s = .next t →
    (t.lastResponse.map respKind = some 4 ↔
      13 ≤ (syndrome (s.dRead o) (s.cRead o)).toNat ∧ parityMatches (s.dRead o) (s.cRead o) = false)) ∧
  (∀ (d0 : Byte) (e : Word13),
    let x := applyPattern e (d0, computeCodeword d0)
    pairKind x.1 x.2 = .unknownError → popcount e % 2 = 1 ∧ 3 ≤ popcount e)

/-- 70_reset_and_hazards.md section 3: a single-bit error is not corrected in storage, so that every later READ reports the
same; the host repairs the offset by writing the returned byte back. Rests on decision D10. -/
def Obligations.SingleBitErrorsPersistUntilWritten : Prop :=
  ∀ (s t : State) (o : Nat) (r : ResponseWord), o < s.params.memSize → exec (.read o) s = .next t →
    t.lastResponse = some r → respKind r = 2 →
    t.bank = s.bank ∧ (∃ u, exec (.read o) t = .next u ∧ u.lastResponse = some r) ∧
    (∃ v, execAll [.write o (respByte r), .read o] t = .next v ∧
      v.lastResponse = some (responseWord .noError 0 (respByte r)))

/-- The frame of READ (20_memory.md section 4): at most bit 7 of the code byte at its offset changes, whatever the offset. -/
def Obligations.ReadChangesAtMostTheStoredOverallParity : Prop :=
  ∀ (s t : State) (o : Nat), exec (.read o) s = .next t →
    (∀ a, t.dRead a = s.dRead a) ∧ (∀ a, a ≠ o → t.cRead a = s.cRead a) ∧
    (∀ i < 7, (t.cRead o).getLsbD i = (s.cRead o).getLsbD i) ∧
    (t.lastResponse.map respKind ≠ some 1 → t.bank = s.bank) ∧
    t.bank.traceEnable = s.bank.traceEnable ∧ t.params = s.params ∧ t.hasBeenReset = s.hasBeenReset ∧
    t.host.pending = s.host.pending

/-! ### FLIP_BIT (42_bit_flip_injector.md) -/

/-- R68: the position map of the injector. -/
def Obligations.InjectorPositionMap : Prop :=
  [3, 5, 6, 7, 9, 10, 11, 12].map target = [7, 6, 5, 4, 3, 2, 1, 0].map (fun i => some (Target.data i)) ∧
  [0, 1, 2, 4, 8].map target = [7, 6, 5, 4, 3].map (fun j => some (Target.code j)) ∧
  ∀ p j, target p = some (.code j) → 3 ≤ j

/-- R69: FLIP_BIT toggles exactly the one bit of the encoded word at its position, re-encodes nothing, and responds NoError;
a position above 12 is answered BoundsPosition and an offset outside the bank BoundsOffset, even if both are out of range,
with no state change. Everything else is as before. -/
def Obligations.FlipTogglesExactlyOneStoredBit : Prop :=
  ∀ (s : State) (o p : Nat),
    (o < s.params.memSize → p ≤ 12 → ∃ t, exec (.flipBit o p) s = .next t ∧
      t.wordAt o = s.wordAt o ^^^ (1#13 <<< (12 - p)) ∧
      (t.cRead o).extractLsb' 0 3 = (s.cRead o).extractLsb' 0 3 ∧
      (∀ a, a ≠ o → s.samePair t a) ∧ t.bank.traceEnable = s.bank.traceEnable ∧ s.answered t 0x0000) ∧
    (o < s.params.memSize → 12 < p → ∃ t, exec (.flipBit o p) s = .next t ∧ t.bank = s.bank ∧ s.answered t 0x0006) ∧
    (s.params.memSize ≤ o → ∃ t, exec (.flipBit o p) s = .next t ∧ t.bank = s.bank ∧ s.answered t 0x0005)

/-- R70: two flips at one position give back the bank from before the first, and a READ of a pair that was valid then reports
NoError. The bank is in its one form, which is an invariant (StepKeepsTheInvariant). -/
def Obligations.FlipTwiceRestores : Prop :=
  ∀ (s : State) (o p : Nat), s.bank.wf s.params.memSize → o < s.params.memSize → p ≤ 12 →
    ∃ t u v, exec (.flipBit o p) s = .next t ∧ exec (.flipBit o p) t = .next u ∧ u.bank = s.bank ∧
      exec (.read o) u = .next v ∧ (s.validAt o → v.lastResponse.map respKind = some 0)

/-- R71: a flip changes the error pattern `e` of a pair to `e XOR (p)`, flips commute, and a flip never changes another
offset. -/
def Obligations.FlipsCommuteAndAccumulate : Prop :=
  (∀ (s t : State) (o p : Nat) (d0 : Byte) (e : Word13), o < s.params.memSize → p ≤ 12 →
    (s.dRead o, s.cRead o) = applyPattern e (d0, computeCodeword d0) → exec (.flipBit o p) s = .next t →
    (t.dRead o, t.cRead o) = applyPattern (e ^^^ positionMask p) (d0, computeCodeword d0)) ∧
  (∀ (s : State) (o p o' q : Nat), o < s.params.memSize → o' < s.params.memSize → p ≤ 12 → q ≤ 12 →
    ∃ t u, execAll [.flipBit o p, .flipBit o' q] s = .next t ∧ execAll [.flipBit o' q, .flipBit o p] s = .next u ∧
      ∀ a, t.samePair u a) ∧
  (∀ (s t : State) (o p a : Nat), a ≠ o → exec (.flipBit o p) s = .next t → s.samePair t a)

/-! ### CREATE_BANK and SET_TRACE (43_control.md) -/

/-- R72: CREATE_BANK always completes: every entry and the trace flag are 0, and it responds NoError. -/
def Obligations.CreateBankZeroesTheBank : Prop :=
  ∀ s : State, ∃ t, exec .createBank s = .next t ∧ (∀ o, t.dRead o = 0 ∧ t.cRead o = 0) ∧
    t.bank.traceEnable = false ∧ t.bank = State.reset.bank ∧ t.host.responses = s.host.responses ++ [0x0000] ∧
    t.host.pending = s.host.pending ∧ t.params = s.params ∧ (s.hasBeenReset = true → t.hasBeenReset = true)

/-- R73: SET_TRACE always completes: only `trace_enable` changes, and it responds NoError. -/
def Obligations.SetTraceWritesOnlyTheFlag : Prop :=
  ∀ (s : State) (en : Bool), ∃ t, exec (.setTrace en) s = .next t ∧ t.bank.traceEnable = en ∧
    t.bank.dataMemory = s.bank.dataMemory ∧ t.bank.codeMemory = s.bank.codeMemory ∧ s.answered t 0x0000

/-- R18, first part: the trace flag changes only by SET_TRACE, CREATE_BANK and reset. -/
def Obligations.TraceFlagChangesOnlyByControl : Prop :=
  ∀ s t : State, step s = .next t → t.bank.traceEnable ≠ s.bank.traceEnable →
    (∃ rest, s.host.pending = .reset :: rest) ∨
    (∃ w rest, s.host.pending = .command w :: rest ∧
      (decode s.params.offsetW w = .instr (.setTrace t.bank.traceEnable) ∨
       decode s.params.offsetW w = .instr .createBank ∧ t.bank.traceEnable = false))

/-- R18, second part ("No rule of this spec reads `trace_enable`"): whatever the flag holds, a run gives the same responses
and leaves the same arrays. -/
def Obligations.TraceFlagNeverReachesAResponse : Prop :=
  ∀ (n : Nat) (s t : State) (en : Bool), core.run n s = .next t →
    ∃ u, core.run n (s.setTraceEnable en) = .next u ∧ u.host = t.host ∧
      u.bank.dataMemory = t.bank.dataMemory ∧ u.bank.codeMemory = t.bank.codeMemory ∧
      u.params = t.params ∧ u.hasBeenReset = t.hasBeenReset

/-! ### Bounds, priority and responses (20_memory.md, 60_exceptions.md) -/

/-- R26, R27: WRITE, READ and FLIP_BIT of an offset outside the bank, as a natural number and never reduced, are answered
BoundsOffset and change nothing. -/
def Obligations.OffsetsOutsideTheBankAreRejected : Prop :=
  ∀ (s : State) (o p : Nat) (b : Byte), s.params.memSize ≤ o →
    let rejected := Host.Outcome.next { s with host := { s.host with responses := s.host.responses ++ [0x0005] } }
    exec (.write o b) s = rejected ∧ exec (.read o) s = rejected ∧ exec (.flipBit o p) s = rejected

/-- R79: after the first reset (R23) every word of the port is answered, with one kind, by the first check that fails: the
`op`, then the offset (WRITE, READ, FLIP_BIT), then the position (FLIP_BIT); otherwise READ answers a classification and
every other command NoError. -/
def Obligations.ChecksAnswerInPriorityOrder : Prop :=
  ∀ (s : State) (w : Nat) (rest : List HostInput),
    s.host.pending = .command w :: rest → w < 2 ^ (16 + s.params.offsetW) → s.hasBeenReset = true →
    let op := w % 8
    let pos := w / 8 % 16
    let outside := s.params.memSize ≤ w / 65536
    ∃ t r, step s = .next t ∧ t.lastResponse = some r ∧
      ((op = 0 ∨ op = 6 ∨ op = 7) → respKind r = 7) ∧
      ((op = 1 ∨ op = 2 ∨ op = 3) → outside → respKind r = 5) ∧
      (op = 3 → ¬ outside → 12 < pos → respKind r = 6) ∧
      (op = 2 → ¬ outside → (respKind r).toNat ≤ 4) ∧
      (op = 1 → ¬ outside → respKind r = 0) ∧
      (op = 3 → ¬ outside → pos ≤ 12 → respKind r = 0) ∧
      ((op = 4 ∨ op = 5) → respKind r = 0)

/-- R78: a command that ends in BoundsOffset, BoundsPosition or IllegalCommand leaves the whole state of the block as it
was. -/
def Obligations.RejectedCommandsChangeNothing : Prop :=
  ∀ (s t : State) (w : Nat) (rest : List HostInput) (r : ResponseWord),
    s.host.pending = .command w :: rest → step s = .next t → t.lastResponse = some r →
    (respKind r = 5 ∨ respKind r = 6 ∨ respKind r = 7) →
    t.bank = s.bank ∧ t.params = s.params ∧ t.hasBeenReset = s.hasBeenReset

/-- Which command can report which kind, and what the fields of a response hold (60_exceptions.md section 1, 30_encoding.md
section 4): the classifications come from READ alone, BoundsOffset from the three commands with an offset, BoundsPosition
from FLIP_BIT; syndrome and byte are 0 in every error and in every response of another command than READ; NoError and
ParityBitError carry syndrome 0 and a single-bit error a position 1..12. -/
def Obligations.ResponseFieldsByCommand : Prop :=
  ∀ (i : Instr) (s t : State) (r : ResponseWord), exec i s = .next t → t.host.responses = s.host.responses ++ [r] →
    (respKind r).toNat ≤ 6 ∧
    ((∀ o, i ≠ .read o) → respSyn r = 0 ∧ respByte r = 0 ∧ (respKind r = 0 ∨ respKind r = 5 ∨ respKind r = 6)) ∧
    (respKind r = 5 → (∃ o b, i = .write o b) ∨ (∃ o, i = .read o) ∨ ∃ o p, i = .flipBit o p) ∧
    (respKind r = 6 → ∃ o p, i = .flipBit o p) ∧
    (respKind r = 5 → respSyn r = 0 ∧ respByte r = 0) ∧
    (respKind r = 0 ∨ respKind r = 1 → respSyn r = 0) ∧
    (respKind r = 2 → 1 ≤ (respSyn r).toNat ∧ (respSyn r).toNat ≤ 12) ∧
    (respKind r = 3 → respSyn r ≠ 0) ∧ (respKind r = 4 → 13 ≤ (respSyn r).toNat)

/-- No traps (60_exceptions.md section 3): every command in every state gives a next state with exactly one more response,
errors included, and the block takes the next command at once. -/
def Obligations.EveryCommandIsAnswered : Prop :=
  ∀ (i : Instr) (s : State), ∃ t r, exec i s = .next t ∧ t.host.responses = s.host.responses ++ [r] ∧
    t.host.pending = s.host.pending ∧ t.params = s.params ∧ (s.hasBeenReset = true → t.hasBeenReset = true)

/-- 20_memory.md section 4: no offset has a side effect on any other offset. -/
def Obligations.CommandsLeaveOtherOffsetsAlone : Prop :=
  ∀ (i : Instr) (s t : State) (a : Nat), ¬ i.reaches a → exec i s = .next t → s.samePair t a

/-- 20_memory.md section 6 (read-after-write, no reordering): a READ after a WRITE of the same offset, with any commands that
do not reach the offset between them, sees exactly the pair that the WRITE stored. -/
def Obligations.ReadAfterWriteSeesTheWrittenPair : Prop :=
  ∀ (s : State) (o : Nat) (b : Byte) (between : List Instr), o < s.params.memSize → (∀ i ∈ between, ¬ i.reaches o) →
    ∃ t u, execAll (.write o b :: between) s = .next t ∧ t.dRead o = b ∧ t.cRead o = computeCodeword b ∧
      exec (.read o) t = .next u ∧ u.lastResponse = some (responseWord .noError 0 b)

/-! ### Invariants and runs (10_state.md, 70_reset_and_hazards.md) -/

/-- The invariant holds after reset, for all parameters that R5 admits, and at `State.reset` (whose parameters are the
model's choice, log 1). -/
def Obligations.InvariantHoldsAtReset : Prop :=
  (∀ p : Params, p.wf → (State.resetWith p).Inv) ∧ State.reset.Inv

/-- Every step keeps the invariant: the parameters within R5, both arrays in their one form and inside the offset space
(R19), the unused code bits 0 (R14), and only words of the port waiting (R39). -/
def Obligations.StepKeepsTheInvariant : Prop :=
  ∀ s t : State, s.Inv → step s = .next t → t.Inv

/-- R14: the unused bits of every code entry are 0 after reset, and every step keeps them 0. -/
def Obligations.UnusedCodeBitsStayZero : Prop :=
  (∀ (p : Params) (o : Nat), ((State.resetWith p).cRead o).extractLsb' 0 3 = 0) ∧
  (∀ s t : State, (∀ o, (s.cRead o).extractLsb' 0 3 = 0) → step s = .next t → ∀ o, (t.cRead o).extractLsb' 0 3 = 0)

/-- R13: a pair is valid after CREATE_BANK, and after WRITE to its offset, and stays valid under every step but a FLIP_BIT at
that offset. -/
def Obligations.ValidPairsStayValidUntilFlipped : Prop :=
  (∀ (s t : State) (o : Nat), exec .createBank s = .next t → t.validAt o) ∧
  (∀ (s t : State) (o : Nat) (b : Byte), o < s.params.memSize → exec (.write o b) s = .next t → t.validAt o) ∧
  (∀ (s t : State) (o : Nat), s.validAt o → step s = .next t →
    (∀ w rest p, s.host.pending = .command w :: rest → decode s.params.offsetW w ≠ .instr (.flipBit o p)) →
    t.validAt o)

/-- A step from a state with the invariant, after the first reset and with an input waiting, always gives a next state; it
takes exactly that input and, if it is a command, adds exactly one response (the program index of 10_state.md section 2
advances by one, whatever the response). That the index is the number of responses is the model's choice (log 2), and so is
that a hardware reset takes one step and has no response (log 5). -/
def Obligations.StepTakesOneInput : Prop :=
  ∀ (s : State) (x : HostInput) (rest : List HostInput), s.Inv → s.hasBeenReset = true → s.host.pending = x :: rest →
    ∃ t, step s = .next t ∧ t.host.pending = rest ∧ t.programIndex = s.programIndex + commandCount [x] ∧
      s.host.responses <+: t.host.responses ∧ t.params = s.params ∧ t.hasBeenReset = true

/-- The end of a run (70_reset_and_hazards.md section 2): from every such state the whole list of inputs is performed without
a stop, and the host then holds one response for each command, after those it held before. That the program index is the
number of responses is the model's choice (log 2), and so is that a hardware reset in the list takes one step and has no
response (log 5). -/
def Obligations.RunAnswersEveryCommand : Prop :=
  ∀ s : State, s.Inv → s.hasBeenReset = true →
    ∃ t, core.run s.host.pending.length s = .next t ∧ t.host.pending = [] ∧
      t.programIndex = s.programIndex + commandCount s.host.pending ∧ s.host.responses <+: t.host.responses

/-- R90: the codeword of 0x00 is 0x00, so that after reset every READ of the bank responds 0x0000; and after `offset % 255`
has been written to every offset, every offset reads back NoError with its byte. That the list of responses holds only this
READ's rests on its being empty after reset, which is the model's choice (log 3). -/
def Obligations.SweepReadsBack : Prop :=
  computeCodeword 0x00 = 0x00 ∧
  (∀ (p : Params) (o : Nat), o < p.memSize →
    ∃ t, exec (.read o) (State.resetWith p) = .next t ∧ t.host.responses = [0x0000]) ∧
  (∀ s : State,
    let offsets := List.range s.params.memSize
    let byteOf (o : Nat) : Byte := BitVec.ofNat 8 (o % 255)
    ∃ t, execAll (offsets.map (fun o => .write o (byteOf o)) ++ offsets.map (fun o => .read o)) s = .next t ∧
      t.host.responses = s.host.responses ++ offsets.map (fun _ => 0x0000) ++
        offsets.map (fun o => responseWord .noError 0 (byteOf o)))
end

