-- ==== Sys2Proof/Laws/State.lean ====
section
/-! SUPPORT. One lemma per field and update of State, so that no proof unfolds a record update. -/

namespace Sys2Proof.Machine

/-! ### dWrite -/

@[simp] theorem State.dWrite_params (s : State) (o : Nat) (v : Byte) :
    (s.dWrite o v).params = s.params := rfl
@[simp] theorem State.dWrite_bank_dataMemory (s : State) (o : Nat) (v : Byte) :
    (s.dWrite o v).bank.dataMemory = s.bank.dataMemory.write o v := rfl
@[simp] theorem State.dWrite_bank_codeMemory (s : State) (o : Nat) (v : Byte) :
    (s.dWrite o v).bank.codeMemory = s.bank.codeMemory := rfl
@[simp] theorem State.dWrite_bank_traceEnable (s : State) (o : Nat) (v : Byte) :
    (s.dWrite o v).bank.traceEnable = s.bank.traceEnable := rfl
@[simp] theorem State.dWrite_hasBeenReset (s : State) (o : Nat) (v : Byte) :
    (s.dWrite o v).hasBeenReset = s.hasBeenReset := rfl
@[simp] theorem State.dWrite_host (s : State) (o : Nat) (v : Byte) :
    (s.dWrite o v).host = s.host := rfl

/-! ### cWrite -/

@[simp] theorem State.cWrite_params (s : State) (o : Nat) (v : Byte) :
    (s.cWrite o v).params = s.params := rfl
@[simp] theorem State.cWrite_bank_dataMemory (s : State) (o : Nat) (v : Byte) :
    (s.cWrite o v).bank.dataMemory = s.bank.dataMemory := rfl
@[simp] theorem State.cWrite_bank_codeMemory (s : State) (o : Nat) (v : Byte) :
    (s.cWrite o v).bank.codeMemory = s.bank.codeMemory.write o v := rfl
@[simp] theorem State.cWrite_bank_traceEnable (s : State) (o : Nat) (v : Byte) :
    (s.cWrite o v).bank.traceEnable = s.bank.traceEnable := rfl
@[simp] theorem State.cWrite_hasBeenReset (s : State) (o : Nat) (v : Byte) :
    (s.cWrite o v).hasBeenReset = s.hasBeenReset := rfl
@[simp] theorem State.cWrite_host (s : State) (o : Nat) (v : Byte) :
    (s.cWrite o v).host = s.host := rfl

/-! ### setTraceEnable -/

@[simp] theorem State.setTraceEnable_params (s : State) (en : Bool) :
    (s.setTraceEnable en).params = s.params := rfl
@[simp] theorem State.setTraceEnable_bank_dataMemory (s : State) (en : Bool) :
    (s.setTraceEnable en).bank.dataMemory = s.bank.dataMemory := rfl
@[simp] theorem State.setTraceEnable_bank_codeMemory (s : State) (en : Bool) :
    (s.setTraceEnable en).bank.codeMemory = s.bank.codeMemory := rfl
@[simp] theorem State.setTraceEnable_bank_traceEnable (s : State) (en : Bool) :
    (s.setTraceEnable en).bank.traceEnable = en := rfl
@[simp] theorem State.setTraceEnable_hasBeenReset (s : State) (en : Bool) :
    (s.setTraceEnable en).hasBeenReset = s.hasBeenReset := rfl
@[simp] theorem State.setTraceEnable_host (s : State) (en : Bool) :
    (s.setTraceEnable en).host = s.host := rfl

/-! ### resetBlock -/

@[simp] theorem State.resetBlock_params (s : State) :
    s.resetBlock.params = s.params := rfl
@[simp] theorem State.resetBlock_bank (s : State) :
    s.resetBlock.bank = Bank.zero := rfl
@[simp] theorem State.resetBlock_hasBeenReset (s : State) :
    s.resetBlock.hasBeenReset = true := rfl
@[simp] theorem State.resetBlock_host (s : State) :
    s.resetBlock.host = s.host := rfl

/-! ### respond -/

@[simp] theorem State.respond_params (s : State) (r : ResponseWord) :
    (s.respond r).params = s.params := rfl
@[simp] theorem State.respond_bank (s : State) (r : ResponseWord) :
    (s.respond r).bank = s.bank := rfl
@[simp] theorem State.respond_hasBeenReset (s : State) (r : ResponseWord) :
    (s.respond r).hasBeenReset = s.hasBeenReset := rfl
@[simp] theorem State.respond_host_pending (s : State) (r : ResponseWord) :
    (s.respond r).host.pending = s.host.pending := rfl
@[simp] theorem State.respond_host_responses (s : State) (r : ResponseWord) :
    (s.respond r).host.responses = s.host.responses ++ [r] := rfl

/-! ### withPending -/

@[simp] theorem State.withPending_params (s : State) (l : List HostInput) :
    (s.withPending l).params = s.params := rfl
@[simp] theorem State.withPending_bank (s : State) (l : List HostInput) :
    (s.withPending l).bank = s.bank := rfl
@[simp] theorem State.withPending_hasBeenReset (s : State) (l : List HostInput) :
    (s.withPending l).hasBeenReset = s.hasBeenReset := rfl
@[simp] theorem State.withPending_host_pending (s : State) (l : List HostInput) :
    (s.withPending l).host.pending = l := rfl
@[simp] theorem State.withPending_host_responses (s : State) (l : List HostInput) :
    (s.withPending l).host.responses = s.host.responses := rfl

/-! ### Reads across the updates of the other parts -/

@[simp] theorem State.setTraceEnable_dRead (s : State) (en : Bool) (a : Nat) :
    (s.setTraceEnable en).dRead a = s.dRead a := rfl
@[simp] theorem State.setTraceEnable_cRead (s : State) (en : Bool) (a : Nat) :
    (s.setTraceEnable en).cRead a = s.cRead a := rfl
@[simp] theorem State.respond_dRead (s : State) (r : ResponseWord) (a : Nat) :
    (s.respond r).dRead a = s.dRead a := rfl
@[simp] theorem State.respond_cRead (s : State) (r : ResponseWord) (a : Nat) :
    (s.respond r).cRead a = s.cRead a := rfl
@[simp] theorem State.withPending_dRead (s : State) (l : List HostInput) (a : Nat) :
    (s.withPending l).dRead a = s.dRead a := rfl
@[simp] theorem State.withPending_cRead (s : State) (l : List HostInput) (a : Nat) :
    (s.withPending l).cRead a = s.cRead a := rfl
@[simp] theorem State.dWrite_cRead (s : State) (o : Nat) (v : Byte) (a : Nat) :
    (s.dWrite o v).cRead a = s.cRead a := rfl
@[simp] theorem State.cWrite_dRead (s : State) (o : Nat) (v : Byte) (a : Nat) :
    (s.cWrite o v).dRead a = s.dRead a := rfl
@[simp] theorem State.resetBlock_dRead (s : State) (a : Nat) : s.resetBlock.dRead a = 0 := rfl
@[simp] theorem State.resetBlock_cRead (s : State) (a : Nat) : s.resetBlock.cRead a = 0 := rfl

/-! ### The state after reset -/

@[simp] theorem State.resetWith_params (p : Params) : (State.resetWith p).params = p := rfl
@[simp] theorem State.resetWith_bank (p : Params) : (State.resetWith p).bank = Bank.zero := rfl
@[simp] theorem State.resetWith_hasBeenReset (p : Params) : (State.resetWith p).hasBeenReset = true := rfl
@[simp] theorem State.resetWith_host_pending (p : Params) : (State.resetWith p).host.pending = [] := rfl
@[simp] theorem State.resetWith_host_responses (p : Params) : (State.resetWith p).host.responses = [] := rfl
@[simp] theorem State.resetWith_dRead (p : Params) (a : Nat) : (State.resetWith p).dRead a = 0 := rfl
@[simp] theorem State.resetWith_cRead (p : Params) (a : Nat) : (State.resetWith p).cRead a = 0 := rfl

end Sys2Proof.Machine
end

