-- ==== Sys2Proof/Laws/Memory.lean ====
section
/-! SUPPORT. The laws of an array: a read after a write, writes that do not meet, and the canonical form, which every
operation keeps and which makes two arrays that read alike equal. -/

namespace Sys2Proof.Machine

/-! ### Reading -/

@[simp] theorem Memory.read_nil (a : Nat) : Memory.read [] a = 0 := rfl

theorem Memory.read_cons (k : Nat) (v : Byte) (m : Memory) (a : Nat) :
    Memory.read ((k, v) :: m) a = if k = a then v else Memory.read m a := rfl

/-- An offset that is not listed reads as 0x00. -/
theorem Memory.read_of_not_listed (m : Memory) (a : Nat) (h : ∀ x ∈ m, x.1 ≠ a) : m.read a = 0 := by
  induction m with
  | nil => rfl
  | cons x m ih =>
    obtain ⟨k, v⟩ := x
    rw [Memory.read_cons, if_neg (h (k, v) (by simp))]
    exact ih fun y hy => h y (by simp [hy])

/-! ### Erasing and inserting -/

theorem Memory.mem_erase {m : Memory} {a : Nat} {x : Host.Cell} : x ∈ m.erase a ↔ x ∈ m ∧ x.1 ≠ a := by
  induction m with
  | nil => simp [Memory.erase]
  | cons y m ih =>
    obtain ⟨k, v⟩ := y
    simp only [Memory.erase]
    split
    · rename_i hk
      subst hk
      rw [ih]
      simp only [List.mem_cons]
      constructor
      · rintro ⟨h, hne⟩
        exact ⟨.inr h, hne⟩
      · rintro ⟨rfl | h, hne⟩
        · exact absurd rfl hne
        · exact ⟨h, hne⟩
    · rename_i hk
      rw [List.mem_cons, List.mem_cons, ih]
      constructor
      · rintro (rfl | ⟨h, hne⟩)
        · exact ⟨.inl rfl, hk⟩
        · exact ⟨.inr h, hne⟩
      · rintro ⟨h | h, hne⟩
        · exact .inl h
        · exact .inr ⟨h, hne⟩

theorem Memory.read_erase (m : Memory) (a b : Nat) :
    (m.erase a).read b = if b = a then 0 else m.read b := by
  induction m with
  | nil => simp [Memory.erase]
  | cons x m ih =>
    obtain ⟨k, v⟩ := x
    by_cases hk : k = a
    · simp only [Memory.erase, if_pos hk, ih, Memory.read_cons]
      split
      · rfl
      · rename_i hb
        rw [if_neg fun (e : k = b) => hb (e ▸ hk)]
    · simp only [Memory.erase, if_neg hk, Memory.read_cons, ih]
      split
      · rename_i hb
        rw [if_neg (hb ▸ hk)]
      · rfl

theorem Memory.mem_insert {m : Memory} {a : Nat} {v : Byte} {x : Host.Cell} :
    x ∈ m.insert a v ↔ x = (a, v) ∨ x ∈ m := by
  induction m with
  | nil => simp [Memory.insert]
  | cons y m ih =>
    obtain ⟨k, w⟩ := y
    simp only [Memory.insert]
    split
    · simp
    · simp only [List.mem_cons, ih]
      tauto

/-- An inserted entry is what its offset reads as, where no other entry stands for it; every other offset is as before. -/
theorem Memory.read_insert (m : Memory) (a : Nat) (v : Byte) (h : ∀ x ∈ m, x.1 ≠ a) (b : Nat) :
    (m.insert a v).read b = if b = a then v else m.read b := by
  induction m with
  | nil => simp [Memory.insert, Memory.read_cons, eq_comm]
  | cons x m ih =>
    obtain ⟨k, w⟩ := x
    have hk : k ≠ a := h (k, w) (by simp)
    have ih := ih fun y hy => h y (by simp [hy])
    simp only [Memory.insert]
    split
    · rw [Memory.read_cons]
      simp [eq_comm]
    · rw [Memory.read_cons, ih, Memory.read_cons]
      by_cases hb : b = a
      · subst hb
        simp [hk]
      · simp [hb]

/-! ### Writing -/

/-- The law of a write, on every array: its offset reads as the value written, every other offset as before. -/
theorem Memory.read_write (m : Memory) (a : Nat) (v : Byte) (b : Nat) :
    (m.write a v).read b = if b = a then v else m.read b := by
  unfold Memory.write
  split
  · rename_i h
    rw [Memory.read_erase, h]
  · rw [Memory.read_insert _ _ _ fun x hx => (Memory.mem_erase.1 hx).2, Memory.read_erase]
    split <;> rfl

@[simp] theorem Memory.read_write_same (m : Memory) (a : Nat) (v : Byte) : (m.write a v).read a = v := by
  simp [Memory.read_write]

theorem Memory.read_write_other (m : Memory) {a b : Nat} (h : b ≠ a) (v : Byte) :
    (m.write a v).read b = m.read b := by
  simp [Memory.read_write, h]

/-- The entries of a written array: the new one, unless it is 0x00, and the old ones of the other offsets. -/
theorem Memory.mem_write {m : Memory} {a : Nat} {v : Byte} {x : Host.Cell} (h : x ∈ m.write a v) :
    (x = (a, v) ∧ v ≠ 0) ∨ (x ∈ m ∧ x.1 ≠ a) := by
  unfold Memory.write at h
  split at h
  · exact .inr (Memory.mem_erase.1 h)
  · rename_i hv
    rcases Memory.mem_insert.1 h with h | h
    · exact .inl ⟨h, hv⟩
    · exact .inr (Memory.mem_erase.1 h)

/-! ### The canonical form -/

@[simp] theorem Memory.wf_nil : Memory.wf [] := ⟨List.Pairwise.nil, by simp⟩

theorem Memory.sorted_erase {m : Memory} (a : Nat) (h : m.Pairwise (fun x y => x.1 < y.1)) :
    (m.erase a).Pairwise (fun x y => x.1 < y.1) := by
  induction m with
  | nil => exact List.Pairwise.nil
  | cons x m ih =>
    obtain ⟨k, v⟩ := x
    obtain ⟨hx, hm⟩ := List.pairwise_cons.1 h
    simp only [Memory.erase]
    split
    · exact ih hm
    · exact List.pairwise_cons.2 ⟨fun y hy => hx y (Memory.mem_erase.1 hy).1, ih hm⟩

theorem Memory.sorted_insert {m : Memory} {a : Nat} (v : Byte) (h : m.Pairwise (fun x y => x.1 < y.1))
    (ha : ∀ x ∈ m, x.1 ≠ a) : (m.insert a v).Pairwise (fun x y => x.1 < y.1) := by
  induction m with
  | nil => simp [Memory.insert]
  | cons x m ih =>
    obtain ⟨k, w⟩ := x
    obtain ⟨hx, hm⟩ := List.pairwise_cons.1 h
    have hk : k ≠ a := ha (k, w) (by simp)
    simp only [Memory.insert]
    split
    · rename_i hlt
      refine List.pairwise_cons.2 ⟨fun y hy => ?_, h⟩
      rcases List.mem_cons.1 hy with rfl | hy
      · exact hlt
      · exact hlt.trans (hx y hy)
    · rename_i hlt
      refine List.pairwise_cons.2 ⟨fun y hy => ?_, ih hm fun y hy => ha y (by simp [hy])⟩
      rcases Memory.mem_insert.1 hy with rfl | hy
      · show k < a
        omega
      · exact hx y hy

/-- Every write keeps the canonical form. -/
theorem Memory.wf_write {m : Memory} (h : m.wf) (a : Nat) (v : Byte) : (m.write a v).wf := by
  constructor
  · unfold Memory.write
    split
    · exact Memory.sorted_erase a h.1
    · exact Memory.sorted_insert v (Memory.sorted_erase a h.1) fun x hx => (Memory.mem_erase.1 hx).2
  · intro x hx
    rcases Memory.mem_write hx with ⟨rfl, hv⟩ | ⟨hx, -⟩
    · exact hv
    · exact h.2 x hx

/-- A write inside the offset space keeps the array inside it. -/
theorem Memory.within_write {m : Memory} {n : Nat} (h : m.within n) {a : Nat} (ha : a < n) (v : Byte) :
    (m.write a v).within n := by
  intro x hx
  rcases Memory.mem_write hx with ⟨rfl, -⟩ | ⟨hx, -⟩
  · exact ha
  · exact h x hx

/-- In a canonical array the first entry's offset reads as the first entry's byte. -/
theorem Memory.lt_of_mem_tail {x : Host.Cell} {m : Memory} (h : Memory.wf (x :: m)) {y : Host.Cell} (hy : y ∈ m) :
    x.1 < y.1 := (List.pairwise_cons.1 h.1).1 y hy

theorem Memory.wf_tail {x : Host.Cell} {m : Memory} (h : Memory.wf (x :: m)) : Memory.wf m :=
  ⟨(List.pairwise_cons.1 h.1).2, fun y hy => h.2 y (by simp [hy])⟩

/-- An offset below every listed one reads as 0x00. -/
theorem Memory.read_below {m : Memory} {a : Nat} (h : ∀ x ∈ m, a < x.1) : m.read a = 0 :=
  Memory.read_of_not_listed m a fun x hx => (h x hx).ne'

/-- Two canonical arrays that read alike everywhere are equal. -/
theorem Memory.ext_of_read {m m' : Memory} (h : m.wf) (h' : m'.wf) (hr : ∀ a, m.read a = m'.read a) : m = m' := by
  induction m generalizing m' with
  | nil =>
    cases m' with
    | nil => rfl
    | cons x m' =>
      obtain ⟨k, v⟩ := x
      have := hr k
      simp only [Memory.read_nil, Memory.read_cons, if_true] at this
      exact absurd this.symm (h'.2 (k, v) (by simp))
  | cons x m ih =>
    obtain ⟨k, v⟩ := x
    have hv : v ≠ 0 := h.2 (k, v) (by simp)
    cases m' with
    | nil =>
      have := hr k
      simp only [Memory.read_nil, Memory.read_cons, if_true] at this
      exact absurd this hv
    | cons y m' =>
      obtain ⟨l, w⟩ := y
      have hw : w ≠ 0 := h'.2 (l, w) (by simp)
      have hkl : k = l := by
        rcases Nat.lt_trichotomy k l with hlt | heq | hlt
        · have := hr k
          rw [Memory.read_cons, if_pos rfl, Memory.read_below (m := (l, w) :: m')] at this
          · exact absurd this hv
          · intro z hz
            rcases List.mem_cons.1 hz with rfl | hz
            · exact hlt
            · exact hlt.trans (Memory.lt_of_mem_tail h' hz)
        · exact heq
        · have := hr l
          rw [Memory.read_cons l w, if_pos rfl, Memory.read_below (m := (k, v) :: m)] at this
          · exact absurd this.symm hw
          · intro z hz
            rcases List.mem_cons.1 hz with rfl | hz
            · exact hlt
            · exact hlt.trans (Memory.lt_of_mem_tail h hz)
      subst hkl
      have hvw : v = w := by simpa [Memory.read_cons] using hr k
      subst hvw
      rw [ih (Memory.wf_tail h) (Memory.wf_tail h')]
      intro a
      by_cases ha : k = a
      · subst ha
        rw [Memory.read_below fun x hx => Memory.lt_of_mem_tail h hx,
          Memory.read_below fun x hx => Memory.lt_of_mem_tail h' hx]
      · simpa [Memory.read_cons, ha] using hr a

/-- Two canonical arrays are equal exactly when they read alike. -/
theorem Memory.eq_iff_read {m m' : Memory} (h : m.wf) (h' : m'.wf) : m = m' ↔ ∀ a, m.read a = m'.read a :=
  ⟨fun e a => by rw [e], Memory.ext_of_read h h'⟩

/-- Writing back what an offset reads as changes nothing. -/
theorem Memory.write_read_self {m : Memory} (h : m.wf) (a : Nat) : m.write a (m.read a) = m :=
  Memory.ext_of_read (Memory.wf_write h _ _) h fun b => by
    rw [Memory.read_write]
    split
    · rename_i hb
      rw [hb]
    · rfl

end Sys2Proof.Machine
end

