-- ==== Sys2Proof/Laws/Codeword.lean ====
section
/-! SUPPORT. The small lemmas of the position map, the response word and the toggles. -/

namespace Sys2Proof.Machine

/-! ### Response words -/

/-- A response word bit by bit (R44). -/
theorem responseWord_getLsbD (k : Kind) (S : Nibble) (b : Byte) (i : Nat) :
    (responseWord k S b).getLsbD i =
      if i < 4 then k.code.getLsbD i else if i - 4 < 4 then S.getLsbD (i - 4) else b.getLsbD (i - 4 - 4) := by
  simp only [responseWord, BitVec.getLsbD_cast, BitVec.getLsbD_append]

@[simp] theorem respKind_responseWord (k : Kind) (S : Nibble) (b : Byte) : respKind (responseWord k S b) = k.code := by
  refine BitVec.eq_of_getLsbD_eq fun i hi => ?_
  simp only [respKind, BitVec.getLsbD_extractLsb', responseWord_getLsbD]
  simp [hi]

@[simp] theorem respSyn_responseWord (k : Kind) (S : Nibble) (b : Byte) : respSyn (responseWord k S b) = S := by
  refine BitVec.eq_of_getLsbD_eq fun i hi => ?_
  simp only [respSyn, BitVec.getLsbD_extractLsb', responseWord_getLsbD]
  simp [hi]

@[simp] theorem respByte_responseWord (k : Kind) (S : Nibble) (b : Byte) : respByte (responseWord k S b) = b := by
  refine BitVec.eq_of_getLsbD_eq fun i hi => ?_
  have h : ¬ 8 + i < 4 := by omega
  have h' : ¬ 8 + i - 4 < 4 := by omega
  have h2 : 8 + i - 4 - 4 = i := by omega
  simp only [respByte, BitVec.getLsbD_extractLsb', responseWord_getLsbD, if_neg h, if_neg h', h2]
  simp [hi]

/-- Response words are equal exactly when their fields are. -/
theorem responseWord_inj {k k' : Kind} {S S' : Nibble} {b b' : Byte} :
    responseWord k S b = responseWord k' S' b' ↔ k.code = k'.code ∧ S = S' ∧ b = b' := by
  constructor
  · intro h
    exact ⟨by simpa using congrArg respKind h, by simpa using congrArg respSyn h, by simpa using congrArg respByte h⟩
  · rintro ⟨h, rfl, rfl⟩
    simp only [responseWord, h]

/-- The kind codes of R76 are distinct. -/
theorem Kind.code_injective {k k' : Kind} (h : k.code = k'.code) : k = k' := by
  cases k <;> cases k' <;> first | rfl | exact absurd h (by decide)

/-! ### The position map -/

/-- The positions that select a stored bit are 0..12 (R68). -/
theorem target_eq_none_iff (p : Nat) : target p = none ↔ 12 < p := by
  constructor
  · intro h
    by_contra hp
    have none_free : ∀ q < 13, target q ≠ none := by decide
    exact none_free p (by omega) h
  · intro h
    obtain ⟨q, rfl⟩ : ∃ q, p = q + 13 := ⟨p - 13, by omega⟩
    rfl

theorem exists_target {p : Nat} (h : p ≤ 12) : ∃ t, target p = some t := by
  cases ht : target p with
  | none => exact absurd ((target_eq_none_iff p).1 ht) (by omega)
  | some t => exact ⟨t, rfl⟩

theorem le_of_target_eq_some {p : Nat} {t : Target} (h : target p = some t) : p ≤ 12 := by
  by_contra hp
  rw [(target_eq_none_iff p).2 (by omega)] at h
  cases h

/-- The bits a target may name: a data bit 0..7, or one of the code bits 3..7. -/
def Target.inRange : Target → Bool
  | .data i => i < 8
  | .code j => 3 ≤ j ∧ j < 8

theorem inRange_of_target {p : Nat} {t : Target} (h : target p = some t) : t.inRange = true := by
  have hp : p < 13 := by have := le_of_target_eq_some h; omega
  have all : ∀ q < 13, (target q).all Target.inRange = true := by decide
  simpa [h] using all p hp

/-- No position selects bits 2:0 of a code byte (R68). -/
theorem code_bit_of_target {p j : Nat} (h : target p = some (.code j)) : 3 ≤ j ∧ j < 8 := by
  simpa [Target.inRange] using inRange_of_target h

theorem data_bit_of_target {p i : Nat} (h : target p = some (.data i)) : i < 8 := by
  simpa [Target.inRange] using inRange_of_target h

/-! ### Toggles -/

theorem toggleBit_toggleBit (v : Byte) (i : Nat) : toggleBit (toggleBit v i) i = v := by
  simp [toggleBit]

theorem toggleBit_comm (v : Byte) (i j : Nat) : toggleBit (toggleBit v i) j = toggleBit (toggleBit v j) i := by
  simp only [toggleBit, BitVec.xor_assoc]
  rw [BitVec.xor_comm (1#8 <<< i)]

/-- A toggled byte bit by bit. -/
theorem toggleBit_getLsbD (v : Byte) (j i : Nat) (hi : i < 8) :
    (toggleBit v j).getLsbD i = if i = j then !v.getLsbD i else v.getLsbD i := by
  simp only [toggleBit, BitVec.getLsbD_xor, BitVec.getLsbD_shiftLeft, BitVec.getLsbD_one, hi]
  by_cases h : i = j
  · subst h
    simp
  · have : i < j ∨ ¬ i - j = 0 := by omega
    rcases this with this | this <;> simp [h, this]

/-! ### Code bytes and encoded words bit by bit -/

/-- The fields of a packed code byte (R38). -/
theorem packCode_bits (pW p1 p2 p3 p4 : Bool) :
    (packCode pW p1 p2 p3 p4).getLsbD 7 = pW ∧ (packCode pW p1 p2 p3 p4).getLsbD 6 = p1 ∧
    (packCode pW p1 p2 p3 p4).getLsbD 5 = p2 ∧ (packCode pW p1 p2 p3 p4).getLsbD 4 = p3 ∧
    (packCode pW p1 p2 p3 p4).getLsbD 3 = p4 ∧ (packCode pW p1 p2 p3 p4).extractLsb' 0 3 = 0 := by
  cases pW <;> cases p1 <;> cases p2 <;> cases p3 <;> cases p4 <;> decide

/-- `rev4(x)[i] = x[3-i]` (R6). -/
theorem rev4_getLsbD (x : Nibble) {i : Nat} (hi : i < 4) : (rev4 x).getLsbD i = x.getLsbD (3 - i) := by
  revert x i
  decide

/-- A healed code byte has the recomputed overall parity in bit 7 and its other bits as before (R61). -/
theorem healedCode_getLsbD (d c : Byte) {i : Nat} (hi : i < 8) :
    (healedCode d c).getLsbD i = if i = 7 then pWRecomputed d c else c.getLsbD i := by
  simp only [healedCode, BitVec.getLsbD_cast, BitVec.getLsbD_append, BitVec.getLsbD_extractLsb', BitVec.getLsbD_ofBool]
  by_cases h : i = 7
  · subst h
    simp
  · have : i < 7 := by omega
    simp [h, this]

/-- The encoded word by position (R37). -/
theorem encodedWord_positions (d c : Byte) :
    positionSet (encodedWord d c) 0 = c.getLsbD 7 ∧ positionSet (encodedWord d c) 1 = c.getLsbD 6 ∧
    positionSet (encodedWord d c) 2 = c.getLsbD 5 ∧ positionSet (encodedWord d c) 3 = d.getLsbD 7 ∧
    positionSet (encodedWord d c) 4 = c.getLsbD 4 ∧ positionSet (encodedWord d c) 5 = d.getLsbD 6 ∧
    positionSet (encodedWord d c) 6 = d.getLsbD 5 ∧ positionSet (encodedWord d c) 7 = d.getLsbD 4 ∧
    positionSet (encodedWord d c) 8 = c.getLsbD 3 ∧ positionSet (encodedWord d c) 9 = d.getLsbD 3 ∧
    positionSet (encodedWord d c) 10 = d.getLsbD 2 ∧ positionSet (encodedWord d c) 11 = d.getLsbD 1 ∧
    positionSet (encodedWord d c) 12 = d.getLsbD 0 := by
  simp only [positionSet, encodedWord, BitVec.getLsbD_cast, BitVec.getLsbD_append, BitVec.getLsbD_ofBool, dataBit]
  simp

/-! ### The unused bits of a code byte -/

/-- A toggle of a bit above 2 leaves the unused bits of a code byte as they are (R14, R68). -/
theorem low_bits_toggleBit (v : Byte) {j : Nat} (h : 3 ≤ j) :
    (toggleBit v j).extractLsb' 0 3 = v.extractLsb' 0 3 := by
  refine BitVec.eq_of_getLsbD_eq fun i hi => ?_
  have hj : i ≠ j := by omega
  simp only [BitVec.getLsbD_extractLsb', Nat.zero_add, toggleBit_getLsbD v j i (by omega), if_neg hj]

/-- The codeword encoder returns 0 in the unused bits (R47). -/
theorem low_bits_computeCodeword (b : Byte) : (computeCodeword b).extractLsb' 0 3 = 0 :=
  (packCode_bits _ _ _ _ _).2.2.2.2.2

/-- The self-heal leaves the unused bits as they are (R61: only bit 7 changes). -/
theorem low_bits_healedCode (d c : Byte) : (healedCode d c).extractLsb' 0 3 = c.extractLsb' 0 3 := by
  refine BitVec.eq_of_getLsbD_eq fun i hi => ?_
  have h7 : i ≠ 7 := by omega
  simp only [BitVec.getLsbD_extractLsb', Nat.zero_add, healedCode_getLsbD d c (i := i) (by omega), if_neg h7]

end Sys2Proof.Machine
end

