-- ==== Sys2Proof/Laws/Ops.lean ====
section
/-! SUPPORT. For each shared operation and each meaning, one lemma that says all it can do; and the inversion lemma of a
step. Proofs cite these and do not unfold. -/

namespace Sys2Proof.Machine

/-! ### Reads and writes of the arrays -/

theorem State.dWrite_dRead (s : State) (o : Nat) (v : Byte) (a : Nat) :
    (s.dWrite o v).dRead a = if a = o then v else s.dRead a := Memory.read_write _ _ _ _

theorem State.cWrite_cRead (s : State) (o : Nat) (v : Byte) (a : Nat) :
    (s.cWrite o v).cRead a = if a = o then v else s.cRead a := Memory.read_write _ _ _ _

@[simp] theorem State.dWrite_dRead_same (s : State) (o : Nat) (v : Byte) : (s.dWrite o v).dRead o = v := by
  simp [State.dWrite_dRead]

@[simp] theorem State.cWrite_cRead_same (s : State) (o : Nat) (v : Byte) : (s.cWrite o v).cRead o = v := by
  simp [State.cWrite_cRead]

/-! ### Toggles in place -/

@[simp] theorem State.toggle_params (s : State) (o : Nat) (t : Target) : (s.toggle o t).params = s.params := by
  cases t <;> rfl
@[simp] theorem State.toggle_host (s : State) (o : Nat) (t : Target) : (s.toggle o t).host = s.host := by
  cases t <;> rfl
@[simp] theorem State.toggle_hasBeenReset (s : State) (o : Nat) (t : Target) :
    (s.toggle o t).hasBeenReset = s.hasBeenReset := by
  cases t <;> rfl
@[simp] theorem State.toggle_bank_traceEnable (s : State) (o : Nat) (t : Target) :
    (s.toggle o t).bank.traceEnable = s.bank.traceEnable := by
  cases t <;> rfl

/-- What a toggle in place does to the pair at every offset (R69). -/
theorem State.toggle_pair (s : State) (o : Nat) (t : Target) (a : Nat) :
    ((s.toggle o t).dRead a, (s.toggle o t).cRead a) =
      if a = o then toggleTarget t (s.dRead a, s.cRead a) else (s.dRead a, s.cRead a) := by
  cases t with
  | data i =>
    simp only [State.toggle, State.dWrite_dRead, State.dWrite_cRead, toggleTarget]
    split
    · rename_i h
      rw [h]
    · rfl
  | code j =>
    simp only [State.toggle, State.cWrite_cRead, State.cWrite_dRead, toggleTarget]
    split
    · rename_i h
      rw [h]
    · rfl

/-! ### The self-heal of READ -/

@[simp] theorem State.selfHeal_params (s : State) (o : Nat) : (s.selfHeal o).params = s.params := by
  unfold State.selfHeal; split <;> rfl
@[simp] theorem State.selfHeal_host (s : State) (o : Nat) : (s.selfHeal o).host = s.host := by
  unfold State.selfHeal; split <;> rfl
@[simp] theorem State.selfHeal_hasBeenReset (s : State) (o : Nat) :
    (s.selfHeal o).hasBeenReset = s.hasBeenReset := by
  unfold State.selfHeal; split <;> rfl
@[simp] theorem State.selfHeal_bank_traceEnable (s : State) (o : Nat) :
    (s.selfHeal o).bank.traceEnable = s.bank.traceEnable := by
  unfold State.selfHeal; split <;> rfl
@[simp] theorem State.selfHeal_bank_dataMemory (s : State) (o : Nat) :
    (s.selfHeal o).bank.dataMemory = s.bank.dataMemory := by
  unfold State.selfHeal; split <;> rfl
@[simp] theorem State.selfHeal_dRead (s : State) (o a : Nat) : (s.selfHeal o).dRead a = s.dRead a := by
  unfold State.selfHeal; split <;> rfl

/-- What the self-heal leaves in the code array (R61). -/
theorem State.selfHeal_cRead (s : State) (o a : Nat) :
    (s.selfHeal o).cRead a = if a = o then codeAfterRead (s.dRead o) (s.cRead o) else s.cRead a := by
  unfold State.selfHeal codeAfterRead
  split
  · exact State.cWrite_cRead _ _ _ _
  · split
    · rename_i h
      rw [h]
    · rfl

/-! ### How a command ends -/

theorem withOffset_inside {o : Nat} {s : State} (h : o < s.params.memSize)
    (body : Host.Outcome State Fault Refusal) : withOffset o s body = body := if_neg (by omega)

theorem withOffset_outside {o : Nat} {s : State} (h : s.params.memSize ≤ o)
    (body : Host.Outcome State Fault Refusal) : withOffset o s body = raise .boundsOffset s := if_pos h

theorem finish_eq (k : Kind) (S : Nibble) (b : Byte) (s : State) :
    finish k S b s = .next (s.respond (responseWord k S b)) := rfl

theorem raise_eq (k : Kind) (s : State) : raise k s = .next (s.respond (responseWord k 0 0)) := rfl

/-- If a bound check lets a next state through, it is the rejection of an offset outside the bank or the body's own. -/
theorem withOffset_next {o : Nat} {s t : State} {body : Host.Outcome State Fault Refusal}
    (h : withOffset o s body = .next t) :
    (s.params.memSize ≤ o ∧ t = s.respond (responseWord .boundsOffset 0 0)) ∨
    (o < s.params.memSize ∧ body = .next t) := by
  by_cases ho : s.params.memSize ≤ o
  · rw [withOffset_outside ho, raise_eq] at h
    injection h with h
    exact .inl ⟨ho, h.symm⟩
  · rw [withOffset_inside (by omega)] at h
    exact .inr ⟨by omega, h⟩

/-! ### The meanings -/

/-- All that WRITE can do. -/
theorem execWrite_next {o : Nat} {b : Byte} {s t : State} (h : execWrite o b s = .next t) :
    (s.params.memSize ≤ o ∧ t = s.respond (responseWord .boundsOffset 0 0)) ∨
    (o < s.params.memSize ∧
      t = ((s.dWrite o b).cWrite o (computeCodeword b)).respond (responseWord .noError 0 0)) := by
  rcases withOffset_next h with h | ⟨ho, h⟩
  · exact .inl h
  · rw [finish_eq] at h
    injection h with h
    exact .inr ⟨ho, h.symm⟩

/-- All that READ can do. -/
theorem execRead_next {o : Nat} {s t : State} (h : execRead o s = .next t) :
    (s.params.memSize ≤ o ∧ t = s.respond (responseWord .boundsOffset 0 0)) ∨
    (o < s.params.memSize ∧ t = (s.selfHeal o).respond (readResponse (s.dRead o) (s.cRead o))) := by
  rcases withOffset_next h with h | ⟨ho, h⟩
  · exact .inl h
  · injection h with h
    exact .inr ⟨ho, h.symm⟩

/-- All that FLIP_BIT can do. -/
theorem execFlipBit_next {o p : Nat} {s t : State} (h : execFlipBit o p s = .next t) :
    (s.params.memSize ≤ o ∧ t = s.respond (responseWord .boundsOffset 0 0)) ∨
    (o < s.params.memSize ∧ 12 < p ∧ t = s.respond (responseWord .boundsPosition 0 0)) ∨
    (o < s.params.memSize ∧ p ≤ 12 ∧
      ∃ g, target p = some g ∧ t = (s.toggle o g).respond (responseWord .noError 0 0)) := by
  rcases withOffset_next h with h | ⟨ho, h⟩
  · exact .inl h
  · split at h
    · rename_i g hg
      rw [finish_eq] at h
      injection h with h
      exact .inr (.inr ⟨ho, le_of_target_eq_some hg, g, hg, h.symm⟩)
    · rename_i hg
      rw [raise_eq] at h
      injection h with h
      exact .inr (.inl ⟨ho, (target_eq_none_iff p).1 hg, h.symm⟩)

/-- All that SET_TRACE can do. -/
theorem execSetTrace_next {en : Bool} {s t : State} (h : execSetTrace en s = .next t) :
    t = (s.setTraceEnable en).respond (responseWord .noError 0 0) := by
  injection h with h
  exact h.symm

/-- All that CREATE_BANK can do. -/
theorem execCreateBank_next {s t : State} (h : execCreateBank s = .next t) :
    t = s.resetBlock.respond (responseWord .noError 0 0) := by
  injection h with h
  exact h.symm

/-! ### A step -/

/-- All that a step can do when it answers a next state: hardware reset, the rejection of an unassigned `op`, or one
command performed. -/
theorem step_next {s t : State} (h : step s = .next t) :
    (∃ rest, s.host.pending = .reset :: rest ∧ t = (s.withPending rest).resetBlock) ∨
    (∃ w rest op, s.host.pending = .command w :: rest ∧ decode s.params.offsetW w = .illegalOp op ∧
      s.hasBeenReset = true ∧ t = (s.withPending rest).respond (responseWord .illegalCommand 0 0)) ∨
    (∃ w rest i, s.host.pending = .command w :: rest ∧ decode s.params.offsetW w = .instr i ∧
      (s.hasBeenReset = true ∨ i = .createBank) ∧ exec i (s.withPending rest) = .next t) := by
  unfold step fetch at h
  split at h
  next => cases h
  next rest hf =>
    split at hf
    · cases hf
    · rename_i r hp
      injection hf with hf
      injection h with h
      exact .inl ⟨r, hp, by rw [← h, ← hf]⟩
    · rename_i w r hp
      unfold present at hf
      split at hf
      · cases hf
      · split at hf <;> cases hf
      · split at hf <;> cases hf
  next => cases h
  next => cases h
  next rest hf =>
    split at hf
    · cases hf
    · cases hf
    · rename_i w r hp
      unfold present at hf
      split at hf
      · cases hf
      · rename_i op hd
        split at hf
        · rename_i hr
          injection hf with hf
          refine .inr (.inl ⟨w, r, op, hp, hd, hr, ?_⟩)
          rw [illegalCommand, raise_eq] at h
          injection h with h
          rw [← h, ← hf]
        · cases hf
      · split at hf <;> cases hf
  next i rest hf =>
    split at hf
    · cases hf
    · cases hf
    · rename_i w r hp
      unfold present at hf
      split at hf
      · cases hf
      · split at hf <;> cases hf
      · rename_i j hd
        split at hf
        · rename_i hr
          injection hf with hi hf
          refine .inr (.inr ⟨w, r, j, hp, hd, ?_, ?_⟩)
          · simpa [State.takes] using hr
          · rw [hi, hf]
            exact h
        · cases hf

/-! ### Several commands, several steps -/

@[simp] theorem State.lastResponse_respond (s : State) (r : ResponseWord) : (s.respond r).lastResponse = some r := by
  simp [State.lastResponse]

@[simp] theorem execAll_nil (s : State) : execAll [] s = .next s := rfl

theorem execAll_cons {i : Instr} {s t : State} (h : exec i s = .next t) (l : List Instr) :
    execAll (i :: l) s = execAll l t := by
  simp only [execAll, h]

/-- The first of several steps, on any machine. -/
theorem run_succ_eq (M : Host.Core) {n : Nat} {s t : M.State} (h : M.step s = .next t) :
    M.run (n + 1) s = M.run n t := by
  simp only [Host.Core.run, h]

/-- Several steps that end in a next state begin with one that does, on any machine. -/
theorem run_succ_inversion (M : Host.Core) {n : Nat} {s t : M.State} (h : M.run (n + 1) s = .next t) :
    ∃ u, M.step s = .next u ∧ M.run n u = .next t := by
  simp only [Host.Core.run] at h
  split at h
  · rename_i u hu
    exact ⟨u, hu, h⟩
  · cases h
  · cases h

/-- `run_succ_eq` for this machine, in its own names. -/
theorem core_run_succ {n : Nat} {s t : State} (h : step s = .next t) : core.run (n + 1) s = core.run n t :=
  run_succ_eq core h

/-- `run_succ_inversion` for this machine, in its own names. -/
theorem core_run_succ_inversion {n : Nat} {s t : State} (h : core.run (n + 1) s = .next t) :
    ∃ u, step s = .next u ∧ core.run n u = .next t :=
  run_succ_inversion core h

end Sys2Proof.Machine
end

