-- ==== Sys2Proof/Laws/PerInstr.lean ====
section
/-! SUPPORT. Statements for all commands, one lemma per constructor. `EncodeFits`: the command word of a well-formed
command fits the `CMD_W` bits of the command port (R39). -/

namespace Sys2Proof.Laws.EncodeFits

/-- The command word fits the port. -/
def Statement (i : Instr) : Prop := ∀ offsetW, i.wf offsetW = true → Sys2Proof.encode i < 2 ^ cmdWidth offsetW

/-- A word whose fields each fit, fits. -/
theorem packWord_lt {offsetW op pos en data o : Nat} (hop : op < 8) (hp : pos < 16) (he : en < 2) (hd : data < 256)
    (ho : o < 2 ^ offsetW) : packWord op pos en data o < 2 ^ cmdWidth offsetW := by
  simp only [packWord, cmdWidth, Nat.pow_add]
  omega

theorem write (o : Nat) (b : Byte) : Statement (.write o b) := fun _ h =>
  packWord_lt (by decide) (by decide) (by decide) b.isLt (by simpa [Instr.wf] using h)

theorem read (o : Nat) : Statement (.read o) := fun _ h =>
  packWord_lt (by decide) (by decide) (by decide) (by decide) (by simpa [Instr.wf] using h)

theorem flipBit (o p : Nat) : Statement (.flipBit o p) := fun _ h => by
  simp only [Instr.wf, Bool.and_eq_true, decide_eq_true_eq] at h
  exact packWord_lt (by decide) h.2 (by decide) (by decide) h.1

theorem setTrace (en : Bool) : Statement (.setTrace en) := fun w _ =>
  packWord_lt (by decide) (by decide) (by cases en <;> decide) (by decide) (Nat.pow_pos (by decide))

theorem createBank : Statement .createBank := fun w _ =>
  packWord_lt (by decide) (by decide) (by decide) (by decide) (Nat.pow_pos (by decide))

end Sys2Proof.Laws.EncodeFits
end

