-- ==== Sys2Proof/Tests/Slice0.lean ====
section
/-! SUPPORT. The model's own tests. Expected values come from the spec: its encoding tables (30_encoding.md) and its test
vectors (95_test_vectors.md), cited at each. Then one witness for each statement that has hypotheses: a state and operands
that meet them together, at the ends of their ranges. -/

namespace Sys2Proof.Tests

open Sys2Proof Sys2Proof.Machine

/-! ### Helpers -/

/-- The state after reset with one stored pair. -/
def pairAt (o : Nat) (d c : Byte) : State :=
  { State.reset with bank := { dataMemory := [(o, d)], codeMemory := [(o, c)], traceEnable := false } }

/-- The state with one input to come. -/
def State.facing (s : State) (x : HostInput) : State := s.withPending [x]

/-- A block that has not been reset yet, with one command to come. -/
def unreset (w : Nat) : State := { State.facing State.reset (.command w) with hasBeenReset := false }

/-- Whether an outcome is a next state with this property. -/
def gives (x : Host.Outcome State Fault Refusal) (f : State → Bool) : Bool :=
  match x with
  | .next t => f t
  | .fault _ => false
  | .refused _ => false

/-- The next state of an outcome, where there is one. -/
def nextOr (s : State) (x : Host.Outcome State Fault Refusal) : State :=
  match x with
  | .next t => t
  | .fault _ => s
  | .refused _ => s

/-- The state after one command. -/
def ran (i : Instr) (s : State) : State := nextOr s (exec i s)

/-- The state after one step. -/
def stepped (s : State) : State := nextOr s (step s)

/-! ### WellFormed: an ill-formed term for each check, refused; and a well-formed one at the bound -/

theorem test_wf_refuses_wide_offset_of_write : Instr.wf 8 (.write 256 0) = false := by decide
theorem test_wf_refuses_wide_offset_of_read : Instr.wf 8 (.read 256) = false := by decide
theorem test_wf_refuses_wide_offset_of_flip : Instr.wf 8 (.flipBit 256 0) = false := by decide
theorem test_wf_refuses_wide_position : Instr.wf 8 (.flipBit 0 16) = false := by decide

/-! ### Decode: words written out bit by bit from R39, R40 and R41 (offset, data, en, pos, op) -/

theorem test_decode_write : decode 8 0b00000011_10100101_0_0000_001 = .instr (.write 3 0xA5) := by decide
/-- The same with every unused bit set (95_test_vectors.md 2.3). -/
theorem test_decode_write_unused_set : decode 8 0b00000011_10100101_1_1111_001 = .instr (.write 3 0xA5) := by decide
theorem test_decode_read : decode 8 0b00001111_00000000_0_0000_010 = .instr (.read 15) := by decide
theorem test_decode_flip : decode 8 0b00000010_00000000_0_1101_011 = .instr (.flipBit 2 13) := by decide
theorem test_decode_trace : decode 8 0b00000000_00000000_1_0000_100 = .instr (.setTrace true) := by decide
theorem test_decode_create_unused_set : decode 8 0b11111111_11111111_1_1111_101 = .instr .createBank := by decide
theorem test_decode_illegal :
    decode 8 0 = .illegalOp 0 ∧ decode 8 0b00000001_11111111_0_0001_110 = .illegalOp 6 ∧
    decode 8 0b00010000_00000000_0_0000_111 = .illegalOp 7 := by decide
theorem test_decode_one_bit_offset : decode 1 0b1_00000000_0_0000_010 = .instr (.read 1) := by decide
theorem test_decode_too_wide : decode 8 (2 ^ 24 + 2) = .tooWide := by decide
theorem test_decodeTableWord :
    decodeTableWord 16 0x0001 = some (.write 0 0) ∧ decodeTableWord 8 0x02 = some (.read 0) ∧
    decodeTableWord 8 0x7B = some (.flipBit 0 15) ∧ decodeTableWord 8 0x84 = some (.setTrace true) ∧
    decodeTableWord 8 0x05 = some .createBank ∧ decodeTableWord 8 0x07 = none := by decide

/-! ### Encode and the assembler (95_test_vectors.md 2.3, 2.7, 2.8 and program P2) -/

theorem test_encode :
    encode (.write 3 0xA5) = 0x03A501 ∧ encode (.read 15) = 0x0F0002 ∧ encode (.flipBit 2 13) = 0x02006B ∧
    encode (.setTrace true) = 0x000084 ∧ encode .createBank = 0x000005 := by decide
theorem test_assemble_line : assembleLine 8
    ['w', 'r', 'i', 't', 'e', ' ', '3', ',', ' ', '0', 'x', 'A', '5', ' ', ';', ' ', 'x'] = some [0x03A501] := by decide
theorem test_assemble_text : assembleText 8
    ['c', 'r', 'e', 'a', 't', 'e', '\n', ';', 'c', '\n', 'f', 'l', 'i', 'p', ' ', '2', ',', '6', '\n'] =
    some [0x000005, 0x020033] := by decide
theorem test_assemble_refuses : assembleLine 8 ['t', 'r', 'a', 'c', 'e', ' ', '2'] = none ∧
    assembleLine 8 ['r', 'e', 'a', 'd', ' ', '2', '5', '6'] = none := by decide

/-! ### The combinational functions (95_test_vectors.md 2.1, 2.2, 2.4, 2.6) -/

/-- The first, a middle and the last row of the codeword table. -/
theorem test_codewords :
    ([0x00, 0x01, 0x02, 0x04, 0x08, 0x0F, 0x5A, 0xA5, 0xF0, 0xFF] : List Byte).map computeCodeword =
      [0x00, 0x98, 0x68, 0xA8, 0xC8, 0x90, 0x00, 0x60, 0xF0, 0x60] := by decide
theorem test_encodedWord :
    encodedWord 0xA5 0x60 = 0b0111001000101#13 ∧ encodedWord 0x37 0x98 = 0b1000101110111#13 := by decide
theorem test_flipPair :
    ([0, 1, 3, 8, 12].map fun p => flipPair p (0xA5, 0x60)) =
      [(0xA5, 0xE0), (0xA5, 0x20), (0x25, 0x60), (0xA5, 0x68), (0xA4, 0x60)] := by decide
theorem test_readResponse :
    readResponse 0xA5 0x60 = 0xA500 ∧ readResponse 0xA5 0xE0 = 0xA501 ∧ readResponse 0x85 0x60 = 0xA562 ∧
    readResponse 0x24 0x60 = 0x24F3 ∧ readResponse 0xA5 0x38 = 0xA5D4 := by decide

/-! ### One step of each command, from its word (95_test_vectors.md 2.3 to 2.8) -/

theorem test_step_write : gives (step (State.reset.withFetchWord 24 0x03A501)) fun t =>
    t.dRead 3 == 0xA5 && t.cRead 3 == 0x60 && t.host.responses == [0x0000] := by decide
theorem test_step_write_outside : gives (step (State.reset.withFetchWord 24 0x101101)) fun t =>
    t.bank == Bank.zero && t.host.responses == [0x0005] := by decide
/-- The self-heal, and its response (2.4, p = 0). -/
theorem test_step_read_heals : gives (step ((pairAt 5 0xA5 0xE0).withFetchWord 24 0x050002)) fun t =>
    t.cRead 5 == 0x60 && t.host.responses == [0xA501] := by decide
/-- A single-bit error at a data position is corrected in the response only (2.4, p = 6). -/
theorem test_step_read_reports : gives (step ((pairAt 5 0x85 0x60).withFetchWord 24 0x050002)) fun t =>
    t.dRead 5 == 0x85 && t.cRead 5 == 0x60 && t.host.responses == [0xA562] := by decide
theorem test_step_flip : gives (step ((pairAt 2 0x3C 0xA0).withFetchWord 24 0x020063)) fun t =>
    t.dRead 2 == 0x3D && t.cRead 2 == 0xA0 && t.host.responses == [0x0000] := by decide
/-- Both operands out of range: the offset is reported (2.7). -/
theorem test_step_flip_bounds : gives (step (State.reset.withFetchWord 24 0x100073)) fun t =>
    t.host.responses == [0x0005] := by decide
theorem test_step_trace : gives (step (State.reset.withFetchWord 24 0x000084)) fun t =>
    t.bank.traceEnable && t.host.responses == [0x0000] := by decide
theorem test_step_create : gives (step ((pairAt 4 0x12 0x00).withFetchWord 24 0xFFFFFD)) fun t =>
    t.bank == Bank.zero && t.host.responses == [0x0000] := by decide
theorem test_step_illegal : gives (step ((pairAt 2 0x3C 0xA0).withFetchWord 24 0x01FF0E)) fun t =>
    t.bank == (pairAt 2 0x3C 0xA0).bank && t.host.responses == [0x0007] := by decide

/-! ### Witnesses: the encodings -/

theorem witness_DecodeOfEncode :
    Instr.wf 8 (.write 255 0xFF) = true ∧ Instr.wf 8 (.read 255) = true ∧ Instr.wf 8 (.flipBit 255 15) = true ∧
    Instr.wf 8 (.setTrace true) = true ∧ Instr.wf 8 .createBank = true ∧ Instr.wf 0 (.read 0) = true := by decide

theorem witness_DecodeReadsTheFieldsOfEveryWord : 255 < 2 ^ 8 ∧ 15 < 16 ∧ 0 < 2 ^ 8 ∧ 0 < 16 := by decide

theorem witness_DecodedCommandsAreWellFormed : decode 8 0xFF007B = .instr (.flipBit 255 15) := by decide

theorem witness_EveryWordIsACommandOrIllegal :
    2 ^ (16 + 8) ≤ 0x1000000 ∧
    (0xFFFFFF < 2 ^ (16 + 8) ∧ 0xFFFFFF % 8 = 7) ∧ (0 < 2 ^ (16 + 8) ∧ 0 % 8 = 0) ∧ (6 < 2 ^ (16 + 8) ∧ 6 % 8 = 6) ∧
    (0xFFFFFD < 2 ^ (16 + 8) ∧ 0xFFFFFD % 8 ≠ 0 ∧ 0xFFFFFD % 8 ≠ 6 ∧ 0xFFFFFD % 8 ≠ 7) := by decide

theorem witness_AssembledLinesDecodeToTheirCommands :
    assemble 8 (.write 255 255) = some 0xFFFF01 ∧ assemble 8 (.read 255) = some 0xFF0002 ∧
    assemble 8 (.flip 255 15) = some 0xFF007B ∧ assemble 8 (.trace 1) = some 0x000084 ∧
    assemble 8 (.trace 0) = some 0x000004 ∧ assemble 8 .create = some 0x000005 ∧
    assemble 8 (.word 0xFFFFFF) = some 0xFFFFFF := by decide

theorem witness_UnusedFieldsChangeNothing :
    0 < 2 ^ State.reset.params.offsetW ∧ 255 < 2 ^ State.reset.params.offsetW ∧ 0 < 16 ∧ 15 < 16 := by decide

/-! ### Witnesses: a step -/

/-- Both ways in which the block takes a command. -/
theorem witness_StepRunsTheDecodedCommand :
    (let s := State.facing State.reset (.command 0x03A501)
     s.host.pending = .command 0x03A501 :: [] ∧ decode s.params.offsetW 0x03A501 = .instr (.write 3 0xA5) ∧
       s.hasBeenReset = true) ∧
    (let s := unreset 0x000005
     s.host.pending = .command 0x000005 :: [] ∧ decode s.params.offsetW 0x000005 = .instr .createBank) := by decide

theorem witness_IllegalCommandsAreAnswered :
    [0x000000, 0x01FF0E, 0xFFFFFF].all (fun w =>
      let s := State.facing State.reset (.command w)
      decide (s.host.pending = .command w :: [] ∧ w < 2 ^ (16 + s.params.offsetW) ∧ s.hasBeenReset = true ∧
        (w % 8 = 0 ∨ w % 8 = 6 ∨ w % 8 = 7))) = true := by decide

theorem witness_CommandsBeforeTheFirstReset :
    [0x000000, 0x000005, 0xFFFFFD, 0xFFFFFF].all (fun w =>
      let s := unreset w
      decide (s.host.pending = .command w :: [] ∧ w < 2 ^ (16 + s.params.offsetW) ∧ s.hasBeenReset = false)) = true ∧
    0x000000 % 8 ≠ 5 ∧ 0x000005 % 8 = 5 ∧ 0xFFFFFD % 8 = 5 ∧ 0xFFFFFF % 8 ≠ 5 := by decide

theorem witness_HardwareResetZeroesTheBlock :
    (State.facing (pairAt 15 0x12 0x08) .reset).host.pending = .reset :: [] ∧
    exec .createBank (State.facing (pairAt 15 0x12 0x08) .reset) =
      .next (ran .createBank (State.facing (pairAt 15 0x12 0x08) .reset)) := ⟨rfl, rfl⟩

theorem witness_ResetValues : exec .createBank (pairAt 4 0x12 0x08) = .next (ran .createBank (pairAt 4 0x12 0x08)) := rfl

theorem witness_StepsThatAreNoCommand :
    State.reset.host.pending = [] ∧
    (let s := State.facing State.reset (.command 0x1000000)
     s.host.pending = .command 0x1000000 :: [] ∧ 2 ^ (16 + s.params.offsetW) ≤ 0x1000000) := by decide

/-! ### Witnesses: WRITE and READ -/

theorem witness_WriteStoresTheByteAndItsCodeword :
    0 < State.reset.params.memSize ∧ 15 < State.reset.params.memSize ∧ State.reset.params.memSize ≤ 16 := by decide

theorem witness_WriteIsIdempotent :
    exec (.write 15 0xA5) State.reset = .next (ran (.write 15 0xA5) State.reset) ∧
    exec (.write 15 0xA5) (ran (.write 15 0xA5) State.reset) =
      .next (ran (.write 15 0xA5) (ran (.write 15 0xA5) State.reset)) := ⟨rfl, rfl⟩

/-- Each row of the table is met, a single-bit error at both ends 1 and 12 of its range and an unknown one at 13 and 14
(95_test_vectors.md 2.4 to 2.6); and the last offset in the bank and the first outside it. -/
theorem witness_ReadClassifiesByTheTable :
    15 < State.reset.params.memSize ∧ State.reset.params.memSize ≤ 16 ∧
    ((syndrome 0xA5 0x60).toNat = 0 ∧ parityMatches 0xA5 0x60 = true) ∧
    ((syndrome 0xA5 0xE0).toNat = 0 ∧ parityMatches 0xA5 0xE0 = false) ∧
    ((syndrome 0xA5 0xA0).toNat = 1 ∧ parityMatches 0xA5 0xA0 = true) ∧
    ((syndrome 0x24 0x60).toNat = 15 ∧ parityMatches 0x24 0x60 = true) ∧
    ((syndrome 0xA5 0x20).toNat = 1 ∧ parityMatches 0xA5 0x20 = false) ∧
    ((syndrome 0xA4 0x60).toNat = 12 ∧ parityMatches 0xA4 0x60 = false) ∧
    ((syndrome 0xA5 0x38).toNat = 13 ∧ parityMatches 0xA5 0x38 = false) ∧
    ((syndrome 0xA5 0x58).toNat = 14 ∧ parityMatches 0xA5 0x58 = false) := by decide

theorem witness_NoErrorExactlyForValidPairs :
    15 < (pairAt 15 0xA5 0x60).params.memSize ∧ ((pairAt 15 0xA5 0x60).cRead 15).extractLsb' 0 3 = 0 ∧
    exec (.read 15) (pairAt 15 0xA5 0x60) = .next (ran (.read 15) (pairAt 15 0xA5 0x60)) ∧
    (ran (.read 15) (pairAt 15 0xA5 0x60)).lastResponse.map respKind = some 0 ∧
    ((pairAt 15 0xA5 0xE0).cRead 15).extractLsb' 0 3 = 0 ∧
    exec (.read 15) (pairAt 15 0xA5 0xE0) = .next (ran (.read 15) (pairAt 15 0xA5 0xE0)) ∧
    (ran (.read 15) (pairAt 15 0xA5 0xE0)).lastResponse.map respKind = some 1 :=
  ⟨by decide, by decide, rfl, by decide, by decide, rfl, by decide⟩

theorem witness_ReadReportsTheInjectedFlips :
    15 < (pairAt 15 0xA5 0x60).params.memSize ∧ (pairAt 15 0xA5 0x60).validAt 15 ∧
    (∀ p ∈ [0, 12, 6, 12], p ≤ 12) ∧ ∀ p ∈ ([] : List Nat), p ≤ 12 := by decide

theorem witness_WriteThenReadReturnsTheByte : 15 < State.reset.params.memSize := by decide

theorem witness_SingleFlipIsLocatedAndCorrected :
    15 < State.reset.params.memSize ∧ 0 ≤ 12 ∧ (1 ≤ 12 ∧ 1 ≤ 1) ∧ (12 ≤ 12 ∧ 1 ≤ 12) := by decide

theorem witness_DoubleFlipIsDetected :
    15 < State.reset.params.memSize ∧ (0 < 1 ∧ 1 ≤ 12) ∧ (0 < 12 ∧ 12 ≤ 12) ∧ (11 < 12 ∧ 12 ≤ 12) := by decide

/-- The positions 1, 4 and 8 flipped, whose XOR is 13 (95_test_vectors.md 2.6); and a READ that reports it. -/
theorem witness_UnknownErrorNeedsThreeFlips :
    15 < (pairAt 15 0xA5 0x38).params.memSize ∧
    exec (.read 15) (pairAt 15 0xA5 0x38) = .next (ran (.read 15) (pairAt 15 0xA5 0x38)) ∧
    (ran (.read 15) (pairAt 15 0xA5 0x38)).lastResponse.map respKind = some 4 ∧
    applyPattern (flipsPattern [1, 4, 8]) (0xA5, computeCodeword 0xA5) = (0xA5, 0x38) ∧
    pairKind 0xA5 0x38 = .unknownError := ⟨by decide, rfl, by decide, by decide, by decide⟩

theorem witness_SingleBitErrorsPersistUntilWritten :
    15 < (pairAt 15 0x85 0x60).params.memSize ∧
    exec (.read 15) (pairAt 15 0x85 0x60) = .next (ran (.read 15) (pairAt 15 0x85 0x60)) ∧
    (ran (.read 15) (pairAt 15 0x85 0x60)).lastResponse = some 0xA562 ∧ respKind 0xA562 = 2 :=
  ⟨by decide, rfl, by decide, by decide⟩

/-- A READ that heals, one that reports another kind, and one outside the bank. -/
theorem witness_ReadChangesAtMostTheStoredOverallParity :
    exec (.read 15) (pairAt 15 0xA5 0xE0) = .next (ran (.read 15) (pairAt 15 0xA5 0xE0)) ∧
    exec (.read 15) (pairAt 15 0x24 0x60) = .next (ran (.read 15) (pairAt 15 0x24 0x60)) ∧
    (ran (.read 15) (pairAt 15 0x24 0x60)).lastResponse.map respKind ≠ some 1 ∧
    exec (.read 16) State.reset = .next (ran (.read 16) State.reset) := ⟨rfl, rfl, by decide, rfl⟩

/-! ### Witnesses: FLIP_BIT -/

theorem witness_InjectorPositionMap : target 0 = some (.code 7) ∧ target 8 = some (.code 3) := by decide

theorem witness_FlipTogglesExactlyOneStoredBit :
    (15 < State.reset.params.memSize ∧ 0 ≤ 12 ∧ 12 ≤ 12) ∧ (15 < State.reset.params.memSize ∧ 12 < 13) ∧
    State.reset.params.memSize ≤ 16 := by decide

theorem witness_FlipTwiceRestores :
    (pairAt 15 0xA5 0x60).bank.wf (pairAt 15 0xA5 0x60).params.memSize ∧ 15 < (pairAt 15 0xA5 0x60).params.memSize ∧
    0 ≤ 12 ∧ 12 ≤ 12 ∧ (pairAt 15 0xA5 0x60).validAt 15 := by decide

/-- A pair that carries the pattern of position 6, and the flip of one more position. -/
theorem witness_FlipsCommuteAndAccumulate :
    15 < (pairAt 15 0x85 0x60).params.memSize ∧ 0 < (pairAt 15 0x85 0x60).params.memSize ∧ 0 ≤ 12 ∧ 12 ≤ 12 ∧
    ((pairAt 15 0x85 0x60).dRead 15, (pairAt 15 0x85 0x60).cRead 15) =
      applyPattern (positionMask 6) (0xA5, computeCodeword 0xA5) ∧
    exec (.flipBit 15 12) (pairAt 15 0x85 0x60) = .next (ran (.flipBit 15 12) (pairAt 15 0x85 0x60)) ∧ 14 ≠ 15 :=
  ⟨by decide, by decide, by decide, by decide, by decide, rfl, by decide⟩

/-! ### Witnesses: the control commands and the trace flag -/

/-- The flag set, and cleared by each of SET_TRACE, CREATE_BANK and hardware reset. -/
theorem witness_TraceFlagChangesOnlyByControl :
    (let s := State.facing State.reset (.command 0x000084)
     step s = .next (stepped s) ∧ (stepped s).bank.traceEnable ≠ s.bank.traceEnable) ∧
    (let s := State.facing (State.reset.setTraceEnable true) (.command 0x000005)
     step s = .next (stepped s) ∧ (stepped s).bank.traceEnable ≠ s.bank.traceEnable) ∧
    (let s := State.facing (State.reset.setTraceEnable true) .reset
     step s = .next (stepped s) ∧ (stepped s).bank.traceEnable ≠ s.bank.traceEnable) :=
  ⟨⟨rfl, by decide⟩, ⟨rfl, by decide⟩, ⟨rfl, by decide⟩⟩

theorem witness_TraceFlagNeverReachesAResponse :
    core.run 1 (State.facing (pairAt 5 0x85 0x60) (.command 0x050002)) =
      .next (stepped (State.facing (pairAt 5 0x85 0x60) (.command 0x050002))) := rfl

/-! ### Witnesses: bounds, priority and responses -/

theorem witness_OffsetsOutsideTheBankAreRejected :
    State.reset.params.memSize ≤ 16 ∧ State.reset.params.memSize ≤ 255 := by decide

/-- One word for each clause: an unassigned `op`; each of the three commands with an offset, outside; the position outside
and at its bound; READ and WRITE inside; the two control commands. -/
theorem witness_ChecksAnswerInPriorityOrder :
    [0x000000, 0x100007, 0x101101, 0x100002, 0x100073, 0x0F006B, 0x0F0063, 0x0F0002, 0x0FFF01, 0x000084, 0x000005].all
      (fun w =>
        let s := State.facing State.reset (.command w)
        decide (s.host.pending = .command w :: [] ∧ w < 2 ^ (16 + s.params.offsetW) ∧ s.hasBeenReset = true)) = true ∧
    (0x100073 % 8 = 3 ∧ State.reset.params.memSize ≤ 0x100073 / 65536) ∧
    (0x0F006B % 8 = 3 ∧ ¬ State.reset.params.memSize ≤ 0x0F006B / 65536 ∧ 12 < 0x0F006B / 8 % 16) ∧
    (0x0F0063 % 8 = 3 ∧ ¬ State.reset.params.memSize ≤ 0x0F0063 / 65536 ∧ 0x0F0063 / 8 % 16 ≤ 12) ∧
    (0x0F0002 % 8 = 2 ∧ ¬ State.reset.params.memSize ≤ 0x0F0002 / 65536) ∧
    (0x0FFF01 % 8 = 1 ∧ ¬ State.reset.params.memSize ≤ 0x0FFF01 / 65536) := by decide

/-- The three kinds of rejection. -/
theorem witness_RejectedCommandsChangeNothing :
    (let s := State.facing (pairAt 2 0x3C 0xA0) (.command 0x100002)
     s.host.pending = .command 0x100002 :: [] ∧ step s = .next (stepped s) ∧
       (stepped s).lastResponse = some 0x0005 ∧ respKind 0x0005 = 5) ∧
    (let s := State.facing (pairAt 2 0x3C 0xA0) (.command 0x02006B)
     s.host.pending = .command 0x02006B :: [] ∧ step s = .next (stepped s) ∧
       (stepped s).lastResponse = some 0x0006 ∧ respKind 0x0006 = 6) ∧
    (let s := State.facing (pairAt 2 0x3C 0xA0) (.command 0x000000)
     s.host.pending = .command 0x000000 :: [] ∧ step s = .next (stepped s) ∧
       (stepped s).lastResponse = some 0x0007 ∧ respKind 0x0007 = 7) :=
  ⟨⟨rfl, rfl, by decide, by decide⟩, ⟨rfl, rfl, by decide, by decide⟩, ⟨rfl, rfl, by decide, by decide⟩⟩

/-- Responses of the kinds 0 to 6, each from a command that can report it. -/
theorem witness_ResponseFieldsByCommand :
    (exec (.setTrace true) State.reset = .next (ran (.setTrace true) State.reset) ∧
      (ran (.setTrace true) State.reset).host.responses = State.reset.host.responses ++ [0x0000]) ∧
    (exec (.write 16 0) State.reset = .next (ran (.write 16 0) State.reset) ∧
      (ran (.write 16 0) State.reset).host.responses = State.reset.host.responses ++ [0x0005]) ∧
    (exec (.flipBit 15 13) State.reset = .next (ran (.flipBit 15 13) State.reset) ∧
      (ran (.flipBit 15 13) State.reset).host.responses = State.reset.host.responses ++ [0x0006]) ∧
    ([(0xA5, 0xE0, 0xA501), (0xA5, 0x20, 0xA512), (0xA4, 0x60, 0xA5C2), (0xA5, 0xA0, 0xA513), (0xA5, 0x38, 0xA5D4)] :
      List (Byte × Byte × ResponseWord)).all (fun x =>
        (ran (.read 15) (pairAt 15 x.1 x.2.1)).host.responses ==
          (pairAt 15 x.1 x.2.1).host.responses ++ [x.2.2]) = true :=
  ⟨⟨rfl, by decide⟩, ⟨rfl, by decide⟩, ⟨rfl, by decide⟩, by decide⟩

theorem witness_EveryCommandIsAnswered : State.reset.hasBeenReset = true := rfl

theorem witness_CommandsLeaveOtherOffsetsAlone :
    (¬ (Instr.write 15 0xFF).reaches 14 ∧
      exec (.write 15 0xFF) State.reset = .next (ran (.write 15 0xFF) State.reset)) ∧
    (¬ (Instr.read 15).reaches 14 ∧ exec (.read 15) State.reset = .next (ran (.read 15) State.reset)) ∧
    (¬ (Instr.flipBit 15 0).reaches 14 ∧ exec (.flipBit 15 0) State.reset = .next (ran (.flipBit 15 0) State.reset)) ∧
    (¬ (Instr.setTrace true).reaches 14 ∧
      exec (.setTrace true) State.reset = .next (ran (.setTrace true) State.reset)) := by
  refine ⟨⟨?_, rfl⟩, ⟨?_, rfl⟩, ⟨?_, rfl⟩, ⟨?_, rfl⟩⟩ <;> simp [Instr.reaches]

theorem witness_ReadAfterWriteSeesTheWrittenPair :
    15 < State.reset.params.memSize ∧
    ∀ i ∈ [Instr.write 14 0xFF, .flipBit 0 3, .setTrace true, .read 14], ¬ i.reaches 15 := by
  refine ⟨by decide, ?_⟩
  simp [Instr.reaches]

/-! ### Witnesses: invariants and runs -/

/-- Parameters at both ends of the bounds of R5. -/
theorem witness_InvariantHoldsAtReset :
    Params.wf { memSize := 1, offsetW := 1 } ∧ Params.wf { memSize := 2, offsetW := 1 } ∧
    Params.wf { memSize := 256, offsetW := 8 } := by decide

theorem witness_StepKeepsTheInvariant :
    (State.facing (pairAt 15 0xA5 0xE0) (.command 0x0F0002)).Inv ∧
    step (State.facing (pairAt 15 0xA5 0xE0) (.command 0x0F0002)) =
      .next (stepped (State.facing (pairAt 15 0xA5 0xE0) (.command 0x0F0002))) := ⟨by decide, rfl⟩

theorem witness_UnusedCodeBitsStayZero :
    (∀ o, ((State.facing State.reset (.command 0x0F0003)).cRead o).extractLsb' 0 3 = 0) ∧
    step (State.facing State.reset (.command 0x0F0003)) =
      .next (stepped (State.facing State.reset (.command 0x0F0003))) := ⟨fun _ => rfl, rfl⟩

/-- A command that is no FLIP_BIT, and a FLIP_BIT at another offset. -/
theorem witness_ValidPairsStayValidUntilFlipped :
    exec .createBank (pairAt 4 0x12 0x08) = .next (ran .createBank (pairAt 4 0x12 0x08)) ∧
    (15 < State.reset.params.memSize ∧ exec (.write 15 0xFF) State.reset = .next (ran (.write 15 0xFF) State.reset)) ∧
    (let s := State.facing (pairAt 15 0xA5 0x60) (.command 0x0E0003)
     s.validAt 15 ∧ step s = .next (stepped s) ∧
     ∀ w rest p, s.host.pending = .command w :: rest → decode s.params.offsetW w ≠ .instr (.flipBit 15 p)) := by
  refine ⟨rfl, ⟨by decide, rfl⟩, by decide, rfl, ?_⟩
  intro w rest p h
  have hw : 0x0E0003 = w := by
    injection h with h _
    injection h
  subst hw
  have hd : decode 8 0x0E0003 = .instr (.flipBit 14 0) := by decide
  intro hc
  have := hd.symm.trans hc
  simp at this

theorem witness_StepTakesOneInput :
    (let s := State.facing (pairAt 15 0xA5 0xE0) (.command 0xFFFFFF)
     s.Inv ∧ s.hasBeenReset = true ∧ s.host.pending = .command 0xFFFFFF :: []) ∧
    (let s := State.facing (pairAt 15 0xA5 0xE0) .reset
     s.Inv ∧ s.hasBeenReset = true ∧ s.host.pending = .reset :: []) := by decide

theorem witness_RunAnswersEveryCommand :
    let s := (pairAt 15 0xA5 0xE0).withPending [.command 0x0F0002, .reset, .command 0xFFFFFF]
    s.Inv ∧ s.hasBeenReset = true := by decide

theorem witness_SweepReadsBack : 15 < Params.vectors.memSize := by decide

end Sys2Proof.Tests
end

section
/-! PROOFS. The state (10_state.md): what a bank that has just been reset holds. -/

namespace Sys2Proof.Machine

/-- R52: 0x00 is the codeword of the data byte 0x00. -/
theorem computeCodeword_zero : computeCodeword 0 = 0 := by decide

/-- R22, for any state that holds the fresh bank, however it came to hold it. -/
theorem State.values_of_bank_zero {s : State} (h : s.bank = Bank.zero) (o : Nat) :
    s.dRead o = 0 ∧ s.cRead o = 0 ∧ s.bank.traceEnable = false ∧ s.validAt o := by
  have hd : s.dRead o = 0 := by rw [State.dRead, h]; exact Memory.read_nil o
  have hc : s.cRead o = 0 := by rw [State.cRead, h]; exact Memory.read_nil o
  have hv : s.validAt o := by rw [State.validAt, hd, hc]; exact computeCodeword_zero.symm
  exact ⟨hd, hc, congrArg Bank.traceEnable h, hv⟩

/-- CREATE_BANK leaves the fresh bank. -/
theorem bank_of_exec_createBank {s t : State} (h : exec .createBank s = .next t) : t.bank = Bank.zero := by
  rw [execCreateBank_next h, State.respond_bank, State.resetBlock_bank]

/-- Settles O13: reset and CREATE_BANK both leave the fresh bank, and the fresh bank determines the four values. -/
theorem resetValues : Obligations.ResetValues :=
  ⟨fun p o => State.values_of_bank_zero (State.resetWith_bank p) o,
    fun _ _ o h => State.values_of_bank_zero (bank_of_exec_createBank h) o⟩

end Sys2Proof.Machine
end

section
/-! PROOFS. Memory access (20_memory.md): the bound check of R26, for the three commands that take an offset. -/

namespace Sys2Proof.Machine

/-- R76, R77: the response word of a bounds error of the offset. -/
theorem responseWord_boundsOffset : responseWord .boundsOffset 0 0 = 0x0005 := by decide

/-- The rejection of an offset, with its response word as a number. -/
theorem raise_boundsOffset_eq (s : State) : raise .boundsOffset s = .next (s.respond 0x0005) := by
  rw [raise_eq, responseWord_boundsOffset]

theorem exec_write_outside {s : State} {o : Nat} (h : s.params.memSize ≤ o) (b : Byte) :
    exec (.write o b) s = .next (s.respond 0x0005) :=
  (withOffset_outside h _).trans (raise_boundsOffset_eq s)

theorem exec_read_outside {s : State} {o : Nat} (h : s.params.memSize ≤ o) :
    exec (.read o) s = .next (s.respond 0x0005) :=
  (withOffset_outside h _).trans (raise_boundsOffset_eq s)

theorem exec_flipBit_outside {s : State} {o : Nat} (h : s.params.memSize ≤ o) (p : Nat) :
    exec (.flipBit o p) s = .next (s.respond 0x0005) :=
  (withOffset_outside h _).trans (raise_boundsOffset_eq s)

/-- Settles O40: each of the three commands begins with the bound check on the offset as it is given, and the check ends
the command before any access. -/
theorem offsetsOutsideTheBankAreRejected : Obligations.OffsetsOutsideTheBankAreRejected :=
  fun _ _ p b h => ⟨exec_write_outside h b, exec_read_outside h, exec_flipBit_outside h p⟩

end Sys2Proof.Machine
end

section
/-! PROOFS. Encodings (30_encoding.md): the decoder on a word written as its fields, and what a step makes of a command
word. Both go through `commandOf`, the opcode map of R41 on field values instead of on a word. -/

namespace Sys2Proof

/-- The command that an `op` and the values of all four operand fields stand for (R41); it drops the fields that its op
does not use. -/
def commandOf (op o p : Nat) (en : Bool) (b : Byte) : Decoded :=
  match op with
  | 1 => .instr (.write o b)
  | 2 => .instr (.read o)
  | 3 => .instr (.flipBit o p)
  | 4 => .instr (.setTrace en)
  | 5 => .instr .createBank
  | op => .illegalOp op

/-- The decoder reads the word through its fields only. -/
theorem decodeOp_eq_commandOf (W w : Nat) :
    ∀ op, decodeOp W w op = commandOf op (offsetField W w) (posField w) (enField w) (dataField w)
  | 0 | 1 | 2 | 3 | 4 | 5 | _ + 6 => rfl

theorem opField_eq_mod (w : Nat) : opField w = w % 8 := by
  simp only [opField, bitField]
  omega

/-- What the decoder makes of a word that fits the port. -/
theorem decode_of_lt {W w : Nat} (h : w < 2 ^ (16 + W)) :
    decode W w = commandOf (w % 8) (offsetField W w) (posField w) (enField w) (dataField w) := by
  rw [← opField_eq_mod, ← decodeOp_eq_commandOf]
  exact if_pos h

/-- The three unassigned ops stand for no command, whatever the fields hold (R42). -/
theorem commandOf_unassigned {op : Nat} (h : op = 0 ∨ op = 6 ∨ op = 7) (o p : Nat) (en : Bool) (b : Byte) :
    commandOf op o p en b = .illegalOp op := by
  rcases h with rfl | rfl | rfl <;> rfl

/-! ### The fields of a packed word (R39, R40) -/

section
variable {op p en d : Nat} (hop : op < 8) (hp : p < 16) (hen : en < 2) (hd : d < 256) (o : Nat)
include hop

theorem packWord_mod_eight : packWord op p en d o % 8 = op := by
  simp only [packWord]
  omega

include hp

theorem posField_packWord : posField (packWord op p en d o) = p := by
  simp only [posField, bitField, packWord]
  omega

include hen

theorem enField_packWord : enField (packWord op p en d o) = (en == 1) := by
  have h : bitField (packWord op p en d o) 7 1 = en := by
    simp only [bitField, packWord]
    omega
  rw [enField, h]

include hd

theorem dataField_packWord : dataField (packWord op p en d o) = BitVec.ofNat 8 d := by
  have h : bitField (packWord op p en d o) 8 8 = d := by
    simp only [bitField, packWord]
    omega
  rw [dataField, h]

theorem offsetField_packWord {W : Nat} {o : Nat} (ho : o < 2 ^ W) :
    offsetField W (packWord op p en d o) = o := by
  have h : packWord op p en d o / 2 ^ 16 = o := by
    simp only [packWord]
    omega
  rw [offsetField, bitField, h, Nat.mod_eq_of_lt ho]

end

/-- The decoder on a packed word: the op selects the command, and each operand is its field as it was packed. -/
theorem decode_packWord {W op o p : Nat} (hop : op < 8) (ho : o < 2 ^ W) (hp : p < 16) (en : Bool) (b : Byte) :
    decode W (packWord op p en.toNat b.toNat o) = commandOf op o p en b := by
  have hen : en.toNat < 2 := en.toNat_lt
  have hb : b.toNat < 256 := b.isLt
  have henable : (en.toNat == 1) = en := by cases en <;> rfl
  rw [decode_of_lt (Laws.EncodeFits.packWord_lt hop hp hen hb ho), packWord_mod_eight hop,
    offsetField_packWord hop hp hen hb ho, posField_packWord hop hp, enField_packWord hop hp hen, henable,
    dataField_packWord hop hp hen hb, BitVec.ofNat_toNat, BitVec.setWidth_eq]

/-- `decode_packWord` with the word written as `op` added to the sum of the other fields. -/
theorem decode_op_add_fields {W op o p : Nat} (hop : op < 8) (ho : o < 2 ^ W) (hp : p < 16) (en : Bool) (b : Byte) :
    decode W (op + (8 * p + 128 * en.toNat + 256 * b.toNat + 65536 * o)) = commandOf op o p en b := by
  have hword : op + (8 * p + 128 * en.toNat + 256 * b.toNat + 65536 * o) = packWord op p en.toNat b.toNat o := by
    simp only [packWord]
    omega
  rw [hword, decode_packWord hop ho hp]

/-- Settles O2: the word of the fields is a packed word, and `commandOf` of each op is the command named there. The word
with `op` 0 is the sum of the other fields alone. -/
theorem decodeReadsTheFieldsOfEveryWord : Obligations.DecodeReadsTheFieldsOfEveryWord := by
  intro W o p en b ho hp fields
  have hdecode (op : Nat) (hop : op < 8) : decode W (op + fields) = commandOf op o p en b :=
    decode_op_add_fields hop ho hp en b
  have hzero : decode W fields = .illegalOp 0 := by
    rw [← Nat.zero_add fields]
    exact hdecode 0 (by decide)
  exact ⟨hdecode 1 (by decide), hdecode 2 (by decide), hdecode 3 (by decide), hdecode 4 (by decide),
    hdecode 5 (by decide), hzero, hdecode 6 (by decide), hdecode 7 (by decide)⟩

end Sys2Proof

namespace Sys2Proof.Machine

/-! ### Command words at the port -/

/-- A command word acts on the block through what the decoder makes of it, and in no other way. -/
theorem step_command_congr {s : State} {w w' : Nat} (h : decode s.params.offsetW w = decode s.params.offsetW w')
    (rest : List HostInput) :
    step (s.withPending (.command w :: rest)) = step (s.withPending (.command w' :: rest)) := by
  have hpresent : present w (s.withPending rest) = present w' (s.withPending rest) := by
    simp only [present, State.withPending_params, h]
  have hfetch : fetch (s.withPending (.command w :: rest)) = fetch (s.withPending (.command w' :: rest)) := hpresent
  rw [step, hfetch, step]

/-- Two packed words with one op act alike where `commandOf` does not tell their other fields apart. -/
theorem step_packWord_congr {s : State} {op o o' p p' : Nat} {en en' : Bool} {b b' : Byte} (rest : List HostInput)
    (hop : op < 8) (ho : o < 2 ^ s.params.offsetW) (ho' : o' < 2 ^ s.params.offsetW) (hp : p < 16) (hp' : p' < 16)
    (hsame : commandOf op o p en b = commandOf op o' p' en' b') :
    step (s.withPending (.command (packWord op p en.toNat b.toNat o) :: rest)) =
      step (s.withPending (.command (packWord op p' en'.toNat b'.toNat o') :: rest)) := by
  refine step_command_congr ?_ rest
  rw [decode_packWord hop ho hp, decode_packWord hop ho' hp', hsame]

/-- Settles O8: `commandOf` drops the fields that its op does not use, so the two words of each clause decode alike. -/
theorem unusedFieldsChangeNothing : Obligations.UnusedFieldsChangeNothing := by
  intro s rest o o' p p' en en' b b' ho ho' hp hp' word run
  have hwrite : run (word 1 p en b o) = run (word 1 p' en' b o) :=
    step_packWord_congr rest (by decide) ho ho hp hp' rfl
  have hread : run (word 2 p en b o) = run (word 2 p' en' b' o) :=
    step_packWord_congr rest (by decide) ho ho hp hp' rfl
  have hflipBit : run (word 3 p en b o) = run (word 3 p en' b' o) :=
    step_packWord_congr rest (by decide) ho ho hp hp rfl
  have hsetTrace : run (word 4 p en b o) = run (word 4 p' en b' o') :=
    step_packWord_congr rest (by decide) ho ho' hp hp' rfl
  have hcreateBank : run (word 5 p en b o) = run (word 5 p' en' b' o') :=
    step_packWord_congr rest (by decide) ho ho' hp hp' rfl
  exact ⟨hwrite, hread, hflipBit, hsetTrace, hcreateBank⟩

/-- After the first reset, a word that decodes to no command is taken and answered, and that is all. -/
theorem step_of_illegalOp {s : State} {w op : Nat} {rest : List HostInput}
    (hpending : s.host.pending = .command w :: rest) (hdecode : decode s.params.offsetW w = .illegalOp op)
    (hreset : s.hasBeenReset = true) :
    step s = .next ((s.withPending rest).respond (responseWord .illegalCommand 0 0)) := by
  have hfetch : fetch s = .illegal (s.withPending rest) := by
    simp only [fetch, hpending, present, State.withPending_params, hdecode, State.withPending_hasBeenReset, hreset,
      if_true]
  rw [step, hfetch]
  exact raise_eq .illegalCommand _

/-- R76, R77: the response word of an illegal command. -/
theorem responseWord_illegalCommand : responseWord .illegalCommand 0 0 = 0x0007 := by decide

/-- Settles O10: an unassigned op decodes to no command whatever the fields hold, and the step answers before it reads
any of them. -/
theorem illegalCommandsAreAnswered : Obligations.IllegalCommandsAreAnswered := by
  intro s w rest hpending hw hreset hop
  have hdecode : decode s.params.offsetW w = .illegalOp (w % 8) :=
    (decode_of_lt hw).trans (commandOf_unassigned hop _ _ _ _)
  rw [step_of_illegalOp hpending hdecode hreset, responseWord_illegalCommand]
  rfl

end Sys2Proof.Machine
end

section
/-! PROOFS. The codeword encoder and WRITE (40_encoder_write.md): the bits of a codeword, the parity of an encoded word,
linearity, and the pair that a WRITE stores. -/

namespace Sys2Proof.Machine

/-! ### Parities -/

/-- What `ac_rfl` needs, beside the library's associativity, to reorder the terms of a parity. -/
theorem xor_commutative : Std.Commutative xor := ⟨Bool.xor_comm⟩

/-- The parity of a byte over its data bits, in the order in which R47 lists them. -/
theorem parity_eq_xor_dataBits (b : Byte) :
    parity b = (dataBit 1 b ^^ dataBit 2 b ^^ dataBit 3 b ^^ dataBit 4 b ^^ dataBit 5 b ^^ dataBit 6 b ^^ dataBit 7 b ^^
      dataBit 8 b) := by
  have := xor_commutative
  have hfold : parity b = (false ^^ dataBit 8 b ^^ dataBit 7 b ^^ dataBit 6 b ^^ dataBit 5 b ^^ dataBit 4 b ^^
      dataBit 3 b ^^ dataBit 2 b ^^ dataBit 1 b) := rfl
  rw [hfold, Bool.false_xor]
  ac_rfl

/-- The parity of an encoded word compares its stored overall parity with the one recomputed from its other bits. -/
theorem parity_encodedWord (d c : Byte) : parity (encodedWord d c) = (pWStored c ^^ pWRecomputed d c) := by
  have := xor_commutative
  have hfold : parity (encodedWord d c) =
      (List.range 13).foldl (fun acc i => acc ^^ positionSet (encodedWord d c) (12 - i)) false := rfl
  obtain ⟨h0, h1, h2, h3, h4, h5, h6, h7, h8, h9, h10, h11, h12⟩ := encodedWord_positions d c
  rw [hfold, pWStored, pWRecomputed, parity_eq_xor_dataBits]
  simp only [List.range, List.range.loop, List.foldl, Nat.reduceSub, h0, h1, h2, h3, h4, h5, h6, h7, h8, h9, h10, h11,
    h12, Bool.false_xor, dataBit]
  ac_rfl

/-! ### The bits of a codeword -/

/-- The four distributed parities of a codeword (R47). -/
theorem computeCodeword_groups (b : Byte) :
    (computeCodeword b).getLsbD 6 = (b.getLsbD 1 ^^ b.getLsbD 3 ^^ b.getLsbD 4 ^^ b.getLsbD 6 ^^ b.getLsbD 7) ∧
    (computeCodeword b).getLsbD 5 = (b.getLsbD 1 ^^ b.getLsbD 2 ^^ b.getLsbD 4 ^^ b.getLsbD 5 ^^ b.getLsbD 7) ∧
    (computeCodeword b).getLsbD 4 = (b.getLsbD 0 ^^ b.getLsbD 4 ^^ b.getLsbD 5 ^^ b.getLsbD 6) ∧
    (computeCodeword b).getLsbD 3 = (b.getLsbD 0 ^^ b.getLsbD 1 ^^ b.getLsbD 2 ^^ b.getLsbD 3) := by
  obtain ⟨-, h1, h2, h3, h4, -⟩ := packCode_bits _ _ _ _ _
  exact ⟨h1, h2, h3, h4⟩

/-- The overall parity that the decoder recomputes from a byte and its codeword is the one that the codeword stores. -/
theorem pWRecomputed_computeCodeword (b : Byte) :
    pWRecomputed b (computeCodeword b) = pWStored (computeCodeword b) := by
  obtain ⟨hW, h1, h2, h3, h4, -⟩ := packCode_bits _ _ _ _ _
  rw [pWRecomputed, pWStored, parity_eq_xor_dataBits, computeCodeword, hW, h1, h2, h3, h4]

/-- Settles O15: the parities are fields of the packed code byte, and bit 7 is the parity that the decoder
recomputes. -/
theorem codewordFollowsTheParityGroups : Obligations.CodewordFollowsTheParityGroups := by
  intro b c
  obtain ⟨h1, h2, h3, h4⟩ := computeCodeword_groups b
  exact ⟨h1, h2, h3, h4, (pWRecomputed_computeCodeword b).symm, low_bits_computeCodeword b⟩

/-- Settles O16: the whole word is even because stored and recomputed overall parity agree, and each group is a parity
beside the data bits it is the XOR of. -/
theorem encodedWordsHaveEvenParity : Obligations.EncodedWordsHaveEvenParity := by
  intro b w at_
  have := xor_commutative
  have hat (k : Nat) : at_ k = positionSet (encodedWord b (computeCodeword b)) k := rfl
  have heven {p g : Bool} (h : p = g) : (p ^^ g) = false := by rw [h, Bool.xor_self]
  obtain ⟨-, h1, h2, h3, h4, h5, h6, h7, h8, h9, h10, h11, h12⟩ := encodedWord_positions b (computeCodeword b)
  obtain ⟨g1, g2, g3, g4⟩ := computeCodeword_groups b
  simp only [hat, h1, h2, h3, h4, h5, h6, h7, h8, h9, h10, h11, h12]
  refine ⟨?_, ?_, ?_, ?_, ?_⟩
  · rw [parity_encodedWord, pWRecomputed_computeCodeword, Bool.xor_self]
  · rw [← heven g1]
    ac_rfl
  · rw [← heven g2]
    ac_rfl
  · rw [← heven g3]
    ac_rfl
  · rw [← heven g4]
    ac_rfl

/-- R50: with p1 to p4 substituted into pW, every data bit that is left occurs once. -/
theorem overallParity_cancel : ∀ d1 d2 d3 d4 d5 d6 d7 d8 : Bool,
    (d1 ^^ d2 ^^ d3 ^^ d4 ^^ d5 ^^ d6 ^^ d7 ^^ d8 ^^ (d7 ^^ d5 ^^ d4 ^^ d2 ^^ d1) ^^ (d7 ^^ d6 ^^ d4 ^^ d3 ^^ d1) ^^
      (d8 ^^ d4 ^^ d3 ^^ d2) ^^ (d8 ^^ d7 ^^ d6 ^^ d5)) = (d1 ^^ d2 ^^ d3 ^^ d5 ^^ d6 ^^ d8) := by
  decide

/-- Settles O17, by `overallParity_cancel` on the field pW of the code byte. -/
theorem closedFormOfTheOverallParity : Obligations.ClosedFormOfTheOverallParity := by
  intro b
  obtain ⟨hW, -⟩ := packCode_bits _ _ _ _ _
  exact hW.trans (overallParity_cancel _ _ _ _ _ _ _ _)

/-! ### Linearity -/

theorem packCode_xor (pW p1 p2 p3 p4 qW q1 q2 q3 q4 : Bool) :
    packCode (pW ^^ qW) (p1 ^^ q1) (p2 ^^ q2) (p3 ^^ q3) (p4 ^^ q4) =
      packCode pW p1 p2 p3 p4 ^^^ packCode qW q1 q2 q3 q4 := by
  refine BitVec.eq_of_getLsbD_eq fun i _ => ?_
  simp only [packCode, BitVec.getLsbD_xor, BitVec.getLsbD_cast, BitVec.getLsbD_append, BitVec.getLsbD_ofBool]
  split_ifs <;> simp [Bool.and_xor_distrib_left]

/-- R51: each parity is an XOR of data bits, and so respects the XOR of bytes. -/
theorem computeCodeword_xor (a b : Byte) : computeCodeword (a ^^^ b) = computeCodeword a ^^^ computeCodeword b := by
  have := xor_commutative
  have hbit (i : Nat) : dataBit i (a ^^^ b) = (dataBit i a ^^ dataBit i b) := BitVec.getLsbD_xor
  simp only [computeCodeword, ← packCode_xor, hbit]
  congr 1 <;> ac_rfl

/-- The bytes with one bit set, from d1 to d8. -/
def unitBytes : List Byte := [0x80, 0x40, 0x20, 0x10, 0x08, 0x04, 0x02, 0x01]

/-- The XOR of the listed bytes whose index, counted from 0 for d1, is that of a set data bit of `b`. -/
def xorSelected (b : Byte) (l : List (Nat × Byte)) : Byte :=
  l.foldl (fun acc x => if b.getLsbD (7 - x.1) then acc ^^^ x.2 else acc) 0

/-- Bit `i` of `xorSelected b l`, added up along the list. -/
def selectedBit (b : Byte) (i : Nat) (l : List (Nat × Byte)) : Bool :=
  l.foldl (fun acc x => acc ^^ (b.getLsbD (7 - x.1) && x.2.getLsbD i)) false

theorem xorSelected_getLsbD (b : Byte) (l : List (Nat × Byte)) (i : Nat) :
    (xorSelected b l).getLsbD i = selectedBit b i l := by
  have hzero : (0 : Byte).getLsbD i = false := BitVec.getLsbD_zero
  rw [xorSelected, selectedBit, ← hzero]
  refine (List.foldl_hom (fun v : Byte => v.getLsbD i) fun acc x => ?_).symm
  cases b.getLsbD (7 - x.1) <;> simp

theorem xorSelected_unitBytes (b : Byte) : xorSelected b ((List.range 8).zip unitBytes) = b := by
  refine BitVec.eq_of_getLsbD_eq fun i hi => ?_
  rw [xorSelected_getLsbD]
  interval_cases i <;> simp [selectedBit, unitBytes, List.range, List.range.loop]

/-- A linear function may be applied before the selection or after it. -/
theorem computeCodeword_xorSelected (b : Byte) (l : List (Nat × Byte)) :
    computeCodeword (xorSelected b l) = xorSelected b (l.map (Prod.map id computeCodeword)) := by
  rw [xorSelected, xorSelected, List.foldl_map, ← computeCodeword_zero]
  refine (List.foldl_hom computeCodeword fun acc x => ?_).symm
  rw [apply_ite computeCodeword, computeCodeword_xor]
  rfl

/-- Settles O18: a byte is the XOR of the unit bytes of its set bits, and the encoder carries that sum over to their
codewords, which are the basis. -/
theorem codewordIsLinear : Obligations.CodewordIsLinear := by
  unfold Obligations.CodewordIsLinear
  intro basis
  have hbasis : unitBytes.map computeCodeword = basis := by decide
  refine ⟨computeCodeword_xor, hbasis, fun b => ?_⟩
  calc computeCodeword b
      = computeCodeword (xorSelected b ((List.range 8).zip unitBytes)) := by rw [xorSelected_unitBytes]
    _ = xorSelected b ((List.range 8).zip (unitBytes.map computeCodeword)) := by
        rw [computeCodeword_xorSelected, List.zip_map_right]
    _ = xorSelected b ((List.range 8).zip basis) := by rw [hbasis]

/-! ### WRITE -/

/-- R76: the response word of a command that has nothing to report. -/
theorem responseWord_noError : responseWord .noError 0 0 = 0x0000 := by decide

/-- WRITE inside the bank, with its response word as a number. -/
theorem exec_write_inside {s : State} {o : Nat} (h : o < s.params.memSize) (b : Byte) :
    exec (.write o b) s = .next (((s.dWrite o b).cWrite o (computeCodeword b)).respond 0x0000) := by
  rw [← responseWord_noError, ← finish_eq]
  exact withOffset_inside h _

/-- Two writes at one offset leave the pair at every other offset alone. -/
theorem State.samePair_writes {a o : Nat} (h : a ≠ o) (s : State) (d c : Byte) :
    s.samePair ((s.dWrite o d).cWrite o c) a := by
  constructor
  · rw [State.cWrite_dRead, State.dWrite_dRead, if_neg h]
  · rw [State.cWrite_cRead, if_neg h, State.dWrite_cRead]

theorem State.answered_respond (s : State) (r : ResponseWord) : s.answered (s.respond r) r := ⟨rfl, rfl, rfl, rfl⟩

/-- Settles O19: inside the bank the two array writes and the response are all that happens; outside it only the
response. -/
theorem writeStoresTheByteAndItsCodeword : Obligations.WriteStoresTheByteAndItsCodeword := by
  intro s o b
  constructor
  · intro ho
    let written := (s.dWrite o b).cWrite o (computeCodeword b)
    have hdata : written.dRead o = b := State.dWrite_dRead_same s o b
    have hcode : written.cRead o = computeCodeword b := State.cWrite_cRead_same _ _ _
    have hother (a : Nat) (ha : a ≠ o) : s.samePair written a := State.samePair_writes ha s b _
    have hanswered : s.answered (written.respond 0x0000) 0x0000 := State.answered_respond written _
    exact ⟨written.respond 0x0000, exec_write_inside ho b, hdata, hcode, hother, rfl, hanswered⟩
  · intro ho
    exact ⟨s.respond 0x0005, exec_write_outside ho b, rfl, State.answered_respond s _⟩

end Sys2Proof.Machine
end

section
/-! PROOFS. The decoder and READ (41_decoder_read.md): the classifier's table, the decoder as a linear function of the
stored pair, error patterns as lists of flips, and what a READ answers and leaves. -/

namespace Sys2Proof.Machine

/-! ### The classifier's table (R59): 16 syndromes by 2 match bits -/

theorem classify_eq_noError_iff : ∀ (S : Nibble) (m : Bool),
    classify S m = .noError ↔ S = 0 ∧ m = true := by decide

theorem classify_eq_parityBitError_iff : ∀ (S : Nibble) (m : Bool),
    classify S m = .parityBitError ↔ S = 0 ∧ m = false := by decide

theorem classify_eq_doubleBitError_iff : ∀ (S : Nibble) (m : Bool),
    classify S m = .doubleBitError ↔ S ≠ 0 ∧ m = true := by decide

theorem classify_eq_singleBitError_iff : ∀ (S : Nibble) (m : Bool),
    classify S m = .singleBitError ↔ (1 ≤ S.toNat ∧ S.toNat ≤ 12) ∧ m = false := by decide

theorem classify_eq_unknownError_iff : ∀ (S : Nibble) (m : Bool),
    classify S m = .unknownError ↔ 13 ≤ S.toNat ∧ m = false := by decide

/-! ### The syndrome and the match bit -/

/-- R56: bit `i` of the syndrome is the mismatch of the parity with weight `2 ^ i`, which stands in bit `6 - i`. -/
theorem syndrome_getLsbD (d c : Byte) {i : Nat} (hi : i < 4) :
    (syndrome d c).getLsbD i = ((computeCodeword d).getLsbD (6 - i) ^^ c.getLsbD (6 - i)) := by
  have hlt : 3 - i < 4 := by omega
  have hbit : 3 + (3 - i) = 6 - i := by omega
  simp only [syndrome, rev4_getLsbD _ hi, parityGroup, BitVec.getLsbD_xor, BitVec.getLsbD_extractLsb', hlt, hbit,
    decide_true, Bool.true_and]

/-- A syndrome of 0 says that the stored distributed parities are the fresh ones, and nothing of the other code bits. -/
theorem syndrome_eq_zero_iff {d c : Byte} :
    syndrome d c = 0 ↔ ∀ i < 4, c.getLsbD (6 - i) = (computeCodeword d).getLsbD (6 - i) := by
  have hbit (i : Nat) (hi : i < 4) :
      (syndrome d c).getLsbD i = false ↔ c.getLsbD (6 - i) = (computeCodeword d).getLsbD (6 - i) := by
    rw [syndrome_getLsbD d c hi]
    cases (computeCodeword d).getLsbD (6 - i) <;> simp
  constructor
  · intro h i hi
    rw [← hbit i hi, h]
    exact BitVec.getLsbD_zero
  · intro h
    exact BitVec.eq_of_getLsbD_eq fun i hi => ((hbit i hi).2 (h i hi)).trans BitVec.getLsbD_zero.symm

/-- R58: of the code byte, the recomputed overall parity uses the four distributed parities only. -/
theorem pWRecomputed_congr {c c' : Byte} (h : ∀ i < 4, c.getLsbD (6 - i) = c'.getLsbD (6 - i)) (d : Byte) :
    pWRecomputed d c = pWRecomputed d c' := by
  have h0 : c.getLsbD 6 = c'.getLsbD 6 := h 0 (by decide)
  have h1 : c.getLsbD 5 = c'.getLsbD 5 := h 1 (by decide)
  have h2 : c.getLsbD 4 = c'.getLsbD 4 := h 2 (by decide)
  have h3 : c.getLsbD 3 = c'.getLsbD 3 := h 3 (by decide)
  rw [pWRecomputed, pWRecomputed, h0, h1, h2, h3]

theorem syndrome_computeCodeword (d : Byte) : syndrome d (computeCodeword d) = 0 :=
  syndrome_eq_zero_iff.2 fun _ _ => rfl

theorem parityMatches_computeCodeword (d : Byte) : parityMatches d (computeCodeword d) = true :=
  beq_iff_eq.2 (pWRecomputed_computeCodeword d).symm

/-! ### Valid pairs and the self-heal (R62) -/

theorem pairKind_computeCodeword (d : Byte) : pairKind d (computeCodeword d) = .noError :=
  (classify_eq_noError_iff _ _).2 ⟨syndrome_computeCodeword d, parityMatches_computeCodeword d⟩

theorem readResponse_computeCodeword (d : Byte) :
    readResponse d (computeCodeword d) = responseWord .noError 0 d := by
  rw [readResponse, pairKind_computeCodeword, syndrome_computeCodeword]
  rfl

/-- Two code bytes are equal when pW, the four distributed parities and the unused bits are. -/
theorem codeByte_ext {c c' : Byte} (hW : c.getLsbD 7 = c'.getLsbD 7)
    (hgroup : ∀ i < 4, c.getLsbD (6 - i) = c'.getLsbD (6 - i)) (hlow : c.extractLsb' 0 3 = c'.extractLsb' 0 3) :
    c = c' := by
  refine BitVec.eq_of_getLsbD_eq fun i hi => ?_
  by_cases h7 : i = 7
  · rw [h7, hW]
  by_cases h3 : i < 3
  · simpa [h3] using congrArg (fun v => v.getLsbD i) hlow
  · have hbit : 6 - (6 - i) = i := by omega
    simpa only [hbit] using hgroup (6 - i) (by omega)

/-- R62: no mismatch of a distributed parity makes the stored four the fresh ones, and then the match bit compares the
stored pW with the fresh one. -/
theorem pairKind_eq_noError_iff {d c : Byte} (hlow : c.extractLsb' 0 3 = 0) :
    pairKind d c = .noError ↔ validPair d c := by
  constructor
  · intro h
    obtain ⟨hS, hm⟩ := (classify_eq_noError_iff _ _).1 h
    have hgroup := syndrome_eq_zero_iff.1 hS
    have hW : pWStored c = pWStored (computeCodeword d) :=
      calc pWStored c = pWRecomputed d c := beq_iff_eq.1 hm
        _ = pWRecomputed d (computeCodeword d) := pWRecomputed_congr hgroup d
        _ = pWStored (computeCodeword d) := pWRecomputed_computeCodeword d
    exact codeByte_ext hW hgroup (hlow.trans (low_bits_computeCodeword d).symm)
  · intro h
    rw [h]
    exact pairKind_computeCodeword d

theorem healedCode_group (d c : Byte) : ∀ i < 4, (healedCode d c).getLsbD (6 - i) = c.getLsbD (6 - i) := by
  intro i _
  have h7 : 6 - i ≠ 7 := by omega
  rw [healedCode_getLsbD d c (by omega), if_neg h7]

/-- The self-heal makes stored and recomputed overall parity agree: the latter does not read the bit it replaces. -/
theorem parityMatches_healedCode (d c : Byte) : parityMatches d (healedCode d c) = true := by
  have hW : pWStored (healedCode d c) = pWRecomputed d c := healedCode_getLsbD d c (by decide)
  rw [parityMatches, hW, pWRecomputed_congr (healedCode_group d c), beq_self_eq_true]

/-- R62: the self-heal of a pair with no mismatch of a distributed parity makes it valid. -/
theorem validPair_healedCode {d c : Byte} (hlow : c.extractLsb' 0 3 = 0) (hS : syndrome d c = 0) :
    validPair d (healedCode d c) := by
  have hhealed : syndrome d (healedCode d c) = 0 :=
    syndrome_eq_zero_iff.2 fun i hi => (healedCode_group d c i hi).trans (syndrome_eq_zero_iff.1 hS i hi)
  refine (pairKind_eq_noError_iff ((low_bits_healedCode d c).trans hlow)).1 ?_
  exact (classify_eq_noError_iff _ _).2 ⟨hhealed, parityMatches_healedCode d c⟩

/-! ### What a READ answers and leaves -/

/-- READ inside the bank. -/
theorem exec_read_inside {s : State} {o : Nat} (h : o < s.params.memSize) :
    exec (.read o) s = .next ((s.selfHeal o).respond (readResponse (s.dRead o) (s.cRead o))) :=
  withOffset_inside h _

theorem eq_of_exec_read {s t : State} {o : Nat} (h : o < s.params.memSize) (hread : exec (.read o) s = .next t) :
    t = (s.selfHeal o).respond (readResponse (s.dRead o) (s.cRead o)) := by
  rw [exec_read_inside h] at hread
  injection hread with ht
  exact ht.symm

/-- The kind that the host reads in the response is the pair's. -/
theorem lastResponse_kind_of_read {s t : State} {o : Nat} (h : o < s.params.memSize)
    (hread : exec (.read o) s = .next t) (k : Kind) :
    t.lastResponse.map respKind = some k.code ↔ pairKind (s.dRead o) (s.cRead o) = k := by
  rw [eq_of_exec_read h hread, State.lastResponse_respond, Option.map_some, readResponse, respKind_responseWord,
    Option.some_inj]
  exact ⟨Kind.code_injective, congrArg Kind.code⟩

theorem codeAfterRead_of_parityBitError {d c : Byte} (h : pairKind d c = .parityBitError) :
    codeAfterRead d c = healedCode d c := if_pos h

theorem codeAfterRead_of_ne_parityBitError {d c : Byte} (h : pairKind d c ≠ .parityBitError) :
    codeAfterRead d c = c := if_neg h

theorem State.selfHeal_cRead_same (s : State) (o : Nat) :
    (s.selfHeal o).cRead o = codeAfterRead (s.dRead o) (s.cRead o) := by
  rw [State.selfHeal_cRead, if_pos rfl]

/-- Beside the response, the self-heal changes nothing of what the host sees. -/
theorem State.answered_respond_selfHeal (s : State) (o : Nat) (r : ResponseWord) :
    s.answered ((s.selfHeal o).respond r) r := by
  simpa only [State.answered, State.selfHeal_host, State.selfHeal_params, State.selfHeal_hasBeenReset] using
    State.answered_respond (s.selfHeal o) r

/-- READ of a valid pair. -/
theorem exec_read_valid {s : State} {o : Nat} (h : o < s.params.memSize) (hv : s.validAt o) :
    ∃ u, exec (.read o) s = .next u ∧ u.lastResponse = some (responseWord .noError 0 (s.dRead o)) := by
  refine ⟨_, exec_read_inside h, ?_⟩
  have hcode : s.cRead o = computeCodeword (s.dRead o) := hv
  rw [State.lastResponse_respond, hcode, readResponse_computeCodeword]

/-- Settles O22: the host reads the pair's kind, which is NoError exactly for a valid pair; and the kind ParityBitError
comes with syndrome 0, so that the self-heal makes the pair valid. -/
theorem noErrorExactlyForValidPairs : Obligations.NoErrorExactlyForValidPairs := by
  intro s t o ho hlow hread
  have hkind := lastResponse_kind_of_read ho hread
  refine ⟨(hkind .noError).trans (pairKind_eq_noError_iff hlow), fun hparity => ?_⟩
  have hpair : pairKind (s.dRead o) (s.cRead o) = .parityBitError := (hkind .parityBitError).1 hparity
  obtain ⟨hS, -⟩ := (classify_eq_parityBitError_iff _ _).1 hpair
  have ht := eq_of_exec_read ho hread
  have hparams : t.params = s.params := by rw [ht, State.respond_params, State.selfHeal_params]
  have hdata : t.dRead o = s.dRead o := by rw [ht, State.respond_dRead, State.selfHeal_dRead]
  have hcode : t.cRead o = healedCode (s.dRead o) (s.cRead o) := by
    rw [ht, State.respond_cRead, State.selfHeal_cRead_same, codeAfterRead_of_parityBitError hpair]
  have hvalid : t.validAt o := by
    rw [State.validAt, hdata, hcode]
    exact validPair_healedCode hlow hS
  refine ⟨hvalid, ?_⟩
  rw [← hdata]
  exact exec_read_valid (hparams ▸ ho) hvalid

/-! ### The response as a number (R44, R60) -/

theorem responseWord_eq_ofNat (k : Kind) (S : Nibble) (b : Byte) :
    responseWord k S b = BitVec.ofNat 16 (k.code.toNat + 16 * S.toNat + 256 * b.toNat) := by
  have hk : k.code.toNat < 16 := k.code.isLt
  have hS : S.toNat < 16 := S.isLt
  have hb : b.toNat < 256 := b.isLt
  refine BitVec.eq_of_toNat_eq ?_
  rw [responseWord, BitVec.toNat_cast, BitVec.toNat_append, BitVec.toNat_append, BitVec.toNat_ofNat,
    ← Nat.shiftLeft_add_eq_or_of_lt hk, ← Nat.shiftLeft_add_eq_or_of_lt hS, Nat.shiftLeft_eq, Nat.shiftLeft_eq]
  omega

theorem nibble_toNat_eq_sum_of_bits : ∀ x : Nibble, x.toNat =
    (x.getLsbD 0).toNat + 2 * (x.getLsbD 1).toNat + 4 * (x.getLsbD 2).toNat + 8 * (x.getLsbD 3).toNat := by decide

theorem correctAt_eq_xor (S : Nibble) (d : Byte) : correctAt S d = d ^^^ correctAt S 0 := by
  unfold correctAt
  split
  · simp [toggleBit]
  · exact BitVec.xor_zero.symm
  · exact BitVec.xor_zero.symm

/-- R60: the mask of the data bit at each position 0..12; 0 where the position is that of a parity bit. -/
def correctionMasks : List Nat := [0, 0, 0, 0x80, 0, 0x40, 0x20, 0x10, 0, 0x08, 0x04, 0x02, 0x01]

theorem correctAt_toNat (S : Nibble) (d : Byte) :
    (correctAt S d).toNat = d.toNat ^^^ correctionMasks.getD S.toNat 0 := by
  have hmask : ∀ S : Nibble, (correctAt S 0).toNat = correctionMasks.getD S.toNat 0 := by decide
  rw [correctAt_eq_xor, BitVec.toNat_xor, hmask]

/-- Settles O21: the sum of the mismatches is the syndrome, so each row of the statement is a row of the classifier's
table, and the kind fixes the returned byte and whether the self-heal writes. -/
theorem readClassifiesByTheTable : Obligations.ReadClassifiesByTheTable := by
  intro s o d c f mismatch S pwr m word correction
  have hS : S = (syndrome d c).toNat := by
    rw [nibble_toNat_eq_sum_of_bits, syndrome_getLsbD d c (by decide), syndrome_getLsbD d c (by decide),
      syndrome_getLsbD d c (by decide), syndrome_getLsbD d c (by decide)]
  have hzero : S = 0 ↔ syndrome d c = 0 := by rw [hS, ← BitVec.toNat_inj]; rfl
  have hword {k : Kind} {n b : Nat} (hk : pairKind d c = k) (hn : k.code.toNat = n)
      (hb : (returnedByte k (syndrome d c) d).toNat = b) : readResponse d c = word n b := by
    rw [readResponse, hk, responseWord_eq_ofNat, ← hS, hn, hb]
  have hcode : (s.selfHeal o).cRead o = codeAfterRead d c := State.selfHeal_cRead_same s o
  have hkept {k : Kind} (hk : pairKind d c = k) (hne : k ≠ .parityBitError) : (s.selfHeal o).cRead o = c :=
    hcode.trans (codeAfterRead_of_ne_parityBitError (hk ▸ hne))
  constructor
  · intro ho
    have hdata (a : Nat) : (s.selfHeal o).dRead a = s.dRead a := State.selfHeal_dRead s o a
    have htrace : (s.selfHeal o).bank.traceEnable = s.bank.traceEnable := State.selfHeal_bank_traceEnable s o
    refine ⟨_, _, exec_read_inside ho, State.answered_respond_selfHeal s o _, hdata, ?_, htrace, ?_, ?_, ?_, ?_, ?_⟩
    · intro a ha
      rw [State.respond_cRead, State.selfHeal_cRead, if_neg ha]
    · intro h0 hm
      have hk : pairKind d c = .noError := (classify_eq_noError_iff _ _).2 ⟨hzero.1 h0, hm⟩
      exact ⟨hword hk rfl rfl, hkept hk (by decide)⟩
    · intro h0 hm
      have hk : pairKind d c = .parityBitError := (classify_eq_parityBitError_iff _ _).2 ⟨hzero.1 h0, hm⟩
      refine ⟨hword hk rfl rfl, fun i hi => ?_⟩
      rw [State.respond_cRead, hcode, codeAfterRead_of_parityBitError hk]
      exact healedCode_getLsbD d c hi
    · intro h0 hm
      have hk : pairKind d c = .doubleBitError := (classify_eq_doubleBitError_iff _ _).2 ⟨mt hzero.2 h0, hm⟩
      exact ⟨hword hk rfl rfl, hkept hk (by decide)⟩
    · intro h1 h12 hm
      have hk : pairKind d c = .singleBitError :=
        (classify_eq_singleBitError_iff _ _).2 ⟨⟨hS ▸ h1, hS ▸ h12⟩, hm⟩
      have hbyte : (returnedByte .singleBitError (syndrome d c) d).toNat = d.toNat ^^^ correction := by
        rw [returnedByte, if_pos rfl, correctAt_toNat, ← hS]
        rfl
      exact ⟨hword hk rfl hbyte, hkept hk (by decide)⟩
    · intro h13 hm
      have hk : pairKind d c = .unknownError := (classify_eq_unknownError_iff _ _).2 ⟨hS ▸ h13, hm⟩
      exact ⟨hword hk rfl rfl, hkept hk (by decide)⟩
  · intro ho
    exact ⟨s.respond 0x0005, exec_read_outside ho, rfl, State.answered_respond s _⟩

/-! ### The decoder is linear -/

theorem rev4_xor (x y : Nibble) : rev4 (x ^^^ y) = rev4 x ^^^ rev4 y := by
  refine BitVec.eq_of_getLsbD_eq fun i hi => ?_
  rw [rev4_getLsbD _ hi, BitVec.getLsbD_xor, BitVec.getLsbD_xor, rev4_getLsbD _ hi, rev4_getLsbD _ hi]

/-- R51, R56: the syndrome of the XOR of two pairs. -/
theorem syndrome_xor (d d' c c' : Byte) :
    syndrome (d ^^^ d') (c ^^^ c') = syndrome d c ^^^ syndrome d' c' := by
  have hgroup (x y : Byte) : parityGroup (x ^^^ y) = parityGroup x ^^^ parityGroup y := BitVec.extractLsb'_xor
  rw [syndrome, syndrome, syndrome, computeCodeword_xor, hgroup, hgroup, ← rev4_xor]
  congr 1
  ac_rfl

theorem pWRecomputed_xor (d d' c c' : Byte) :
    pWRecomputed (d ^^^ d') (c ^^^ c') = (pWRecomputed d c ^^ pWRecomputed d' c') := by
  have := xor_commutative
  simp only [pWRecomputed, parity_eq_xor_dataBits, dataBit, BitVec.getLsbD_xor]
  ac_rfl

/-- The XOR of two pairs matches where both pairs match or neither does. -/
theorem parityMatches_xor (d d' c c' : Byte) :
    parityMatches (d ^^^ d') (c ^^^ c') = (parityMatches d c == parityMatches d' c') := by
  have hstored : pWStored (c ^^^ c') = (pWStored c ^^ pWStored c') := BitVec.getLsbD_xor
  have hbeq : ∀ a a' b b' : Bool, ((a ^^ a') == (b ^^ b')) = ((a == b) == (a' == b')) := by decide
  rw [parityMatches, hstored, pWRecomputed_xor, hbeq]
  rfl

/-! ### Flips -/

/-- The XOR of two stored pairs. -/
def xorPair (x y : Byte × Byte) : Byte × Byte := (x.1 ^^^ y.1, x.2 ^^^ y.2)

theorem xorPair_zero (x : Byte × Byte) : xorPair x (0, 0) = x := by
  ext1 <;> exact BitVec.xor_zero

/-- A flip toggles a bit whatever it is, so it may come before an XOR or after it (R69). -/
theorem flipPair_xorPair (p : Nat) (x y : Byte × Byte) : flipPair p (xorPair x y) = xorPair x (flipPair p y) := by
  unfold flipPair
  split
  · rename_i t _
    cases t <;> simp [toggleTarget, toggleBit, xorPair, BitVec.xor_assoc]
  · rfl

/-- A flip is the XOR with the flip of the zero pair. -/
theorem flipPair_eq_xorPair (p : Nat) (x : Byte × Byte) : flipPair p x = xorPair x (flipPair p (0, 0)) := by
  rw [← flipPair_xorPair, xorPair_zero]

/-- Each position has its own number as the syndrome of its flip, position 0 included (R37, R63). -/
theorem syndrome_flipPair {p : Nat} (hp : p < 13) (x : Byte × Byte) :
    syndrome (flipPair p x).1 (flipPair p x).2 = syndrome x.1 x.2 ^^^ BitVec.ofNat 4 p := by
  have hzero : ∀ p < 13, syndrome (flipPair p (0, 0)).1 (flipPair p (0, 0)).2 = BitVec.ofNat 4 p := by decide
  rw [flipPair_eq_xorPair, xorPair, syndrome_xor, hzero p hp]

/-- Every flip turns the match bit over (R63). -/
theorem parityMatches_flipPair {p : Nat} (hp : p < 13) (x : Byte × Byte) :
    parityMatches (flipPair p x).1 (flipPair p x).2 = !parityMatches x.1 x.2 := by
  have hzero : ∀ p < 13, parityMatches (flipPair p (0, 0)).1 (flipPair p (0, 0)).2 = false := by decide
  rw [flipPair_eq_xorPair, xorPair, parityMatches_xor, hzero p hp, beq_false]

/-- The pair after flips at the listed positions, in order. -/
def flipAll (ps : List Nat) (x : Byte × Byte) : Byte × Byte := ps.foldl (fun y p => flipPair p y) x

/-- The XOR of the listed positions, begun at `S`. -/
def xorAll (ps : List Nat) (S : Nibble) : Nibble := ps.foldl (fun acc p => acc ^^^ BitVec.ofNat 4 p) S

theorem syndrome_flipAll {ps : List Nat} (hps : ∀ p ∈ ps, p < 13) (x : Byte × Byte) :
    syndrome (flipAll ps x).1 (flipAll ps x).2 = xorAll ps (syndrome x.1 x.2) := by
  induction ps generalizing x with
  | nil => rfl
  | cons p ps ih =>
    obtain ⟨hp, hps⟩ := List.forall_mem_cons.1 hps
    exact (ih hps (flipPair p x)).trans (congrArg (xorAll ps) (syndrome_flipPair hp x))

theorem parityMatches_flipAll {ps : List Nat} (hps : ∀ p ∈ ps, p < 13) (x : Byte × Byte) :
    parityMatches (flipAll ps x).1 (flipAll ps x).2 = (parityMatches x.1 x.2 ^^ decide (ps.length % 2 = 1)) := by
  induction ps generalizing x with
  | nil => exact (Bool.xor_false _).symm
  | cons p ps ih =>
    obtain ⟨hp, hps⟩ := List.forall_mem_cons.1 hps
    have hparity : decide ((p :: ps).length % 2 = 1) = !decide (ps.length % 2 = 1) := by
      rw [List.length_cons, ← decide_not, decide_eq_decide]
      omega
    refine (ih hps (flipPair p x)).trans ?_
    rw [parityMatches_flipPair hp, hparity, Bool.not_xor, Bool.xor_not]

theorem flipAll_xorPair (ps : List Nat) (x y : Byte × Byte) : flipAll ps (xorPair x y) = xorPair x (flipAll ps y) :=
  List.foldl_hom (xorPair x) fun y p => flipPair_xorPair p x y

/-! ### Error patterns (R9, R63) -/

/-- The positions set in a pattern, in rising order. -/
def setPositions (e : Word13) : List Nat := (List.range 13).filter (positionSet e)

theorem lt_of_mem_setPositions {e : Word13} {p : Nat} (h : p ∈ setPositions e) : p < 13 :=
  List.mem_range.1 (List.mem_filter.1 h).1

/-- Applying a pattern is flipping its positions. -/
theorem applyPattern_eq_flipAll (e : Word13) (x : Byte × Byte) : applyPattern e x = flipAll (setPositions e) x :=
  List.foldl_filter.symm

theorem xorOfPositions_eq_xorAll (e : Word13) : xorOfPositions e = xorAll (setPositions e) 0 :=
  List.foldl_filter.symm

/-- The positions run through the bits of the mask from the other end. -/
theorem popcount_eq_length_setPositions (e : Word13) : popcount e = (setPositions e).length := by
  have hreverse : List.range 13 = ((List.range 13).map fun k => 12 - k).reverse := by decide
  rw [popcount, hreverse, List.countP_reverse, List.countP_map, setPositions, ← List.countP_eq_length_filter]
  rfl

/-- R63: the syndrome of a valid pair with a pattern applied. -/
theorem syndrome_applyPattern (d0 : Byte) (e : Word13) :
    syndrome (applyPattern e (d0, computeCodeword d0)).1 (applyPattern e (d0, computeCodeword d0)).2 =
      xorOfPositions e := by
  rw [applyPattern_eq_flipAll, syndrome_flipAll fun _ => lt_of_mem_setPositions, syndrome_computeCodeword,
    xorOfPositions_eq_xorAll]

/-- R63: the match bit of a valid pair with a pattern applied. -/
theorem parityMatches_applyPattern (d0 : Byte) (e : Word13) :
    parityMatches (applyPattern e (d0, computeCodeword d0)).1 (applyPattern e (d0, computeCodeword d0)).2 =
      !decide (popcount e % 2 = 1) := by
  rw [applyPattern_eq_flipAll, parityMatches_flipAll fun _ => lt_of_mem_setPositions, parityMatches_computeCodeword,
    popcount_eq_length_setPositions, Bool.true_xor]

/-- R64: the kind of a valid pair with a pattern applied, as a function of the pattern. -/
theorem pairKind_applyPattern (d0 : Byte) (e : Word13) :
    pairKind (applyPattern e (d0, computeCodeword d0)).1 (applyPattern e (d0, computeCodeword d0)).2 =
      classify (xorOfPositions e) !decide (popcount e % 2 = 1) := by
  rw [pairKind, syndrome_applyPattern, parityMatches_applyPattern]

/-- R64: a pattern changes a pair by what it makes of the zero pair. -/
theorem applyPattern_eq_xorPair (e : Word13) (x : Byte × Byte) :
    applyPattern e x = xorPair x (applyPattern e (0, 0)) := by
  rw [applyPattern_eq_flipAll, applyPattern_eq_flipAll, ← flipAll_xorPair, xorPair_zero]

/-- Settles O25: kind and syndrome are functions of the pattern, and the stored data byte is the original one XOR what
the pattern makes of the zero pair. -/
theorem readResultDependsOnlyOnThePattern : Obligations.ReadResultDependsOnlyOnThePattern := by
  intro d0 d1 e x y z
  have hkind : pairKind x.1 x.2 = pairKind y.1 y.2 :=
    (pairKind_applyPattern d0 e).trans (pairKind_applyPattern d1 e).symm
  have hsyndrome : syndrome x.1 x.2 = syndrome y.1 y.2 :=
    (syndrome_applyPattern d0 e).trans (syndrome_applyPattern d1 e).symm
  have hdata : x.1 = d0 ^^^ z.1 := congrArg Prod.fst (applyPattern_eq_xorPair e _)
  refine ⟨hkind, hsyndrome, ?_⟩
  rw [← hdata, readResponse]

/-- A pattern of one position has that position as its syndrome, and so none of 13..15. -/
theorem xorOfPositions_le_of_popcount_eq_one {e : Word13} (h : popcount e = 1) : (xorOfPositions e).toNat ≤ 12 := by
  rw [popcount_eq_length_setPositions] at h
  obtain ⟨p, hp⟩ := List.length_eq_one_iff.1 h
  have hlt : p < 13 := lt_of_mem_setPositions (e := e) (by simp [hp])
  have hxor : xorAll [p] 0 = BitVec.ofNat 4 p := BitVec.zero_xor
  rw [xorOfPositions_eq_xorAll, hp, hxor, BitVec.toNat_ofNat]
  omega

/-- Settles O29: the row of the table for UnknownError, with the syndrome and the match bit of a pattern: no match makes
the number of positions odd, and one position alone has a syndrome of at most 12. -/
theorem unknownErrorNeedsThreeFlips : Obligations.UnknownErrorNeedsThreeFlips := by
  constructor
  · intro s t o ho hread
    exact (lastResponse_kind_of_read ho hread .unknownError).trans (classify_eq_unknownError_iff _ _)
  · intro d0 e x hunknown
    obtain ⟨hS, hm⟩ := (classify_eq_unknownError_iff _ _).1 ((pairKind_applyPattern d0 e).symm.trans hunknown)
    have hodd : popcount e % 2 = 1 := by simpa using hm
    have hne : popcount e ≠ 1 := fun hone => by
      have := xorOfPositions_le_of_popcount_eq_one hone
      omega
    exact ⟨hodd, by omega⟩

end Sys2Proof.Machine
end

section
/-! PROOFS. The bit-flip injector (42_bit_flip_injector.md): a flip as one position of the encoded word, and a toggle in
place as its own inverse. -/

namespace Sys2Proof.Machine

/-- Settles O32: two finite tables, and `code_bit_of_target` for the positions in general. -/
theorem injectorPositionMap : Obligations.InjectorPositionMap :=
  ⟨by decide, by decide, fun _ _ h => (code_bit_of_target h).1⟩

/-! ### A flip of a stored pair (R69) -/

/-- The encoded word is a rearrangement of the stored bits, so it carries XOR over. -/
theorem encodedWord_xor (d d' c c' : Byte) :
    encodedWord (d ^^^ d') (c ^^^ c') = encodedWord d c ^^^ encodedWord d' c' := by
  simp only [encodedWord, dataBit, BitVec.getLsbD_xor, ← BitVec.ofBool_xor_ofBool, ← BitVec.xor_append]
  rfl

/-- A flip changes the encoded word in exactly its own position (R37, R69). -/
theorem encodedWord_flipPair {p : Nat} (hp : p ≤ 12) (x : Byte × Byte) :
    encodedWord (flipPair p x).1 (flipPair p x).2 = encodedWord x.1 x.2 ^^^ positionMask p := by
  have hzero : ∀ q < 13, encodedWord (flipPair q (0, 0)).1 (flipPair q (0, 0)).2 = positionMask q := by decide
  rw [flipPair_eq_xorPair, xorPair, encodedWord_xor, hzero p (by omega)]

/-- No flip reaches the unused bits of the code byte (R68). -/
theorem low_bits_flipPair (p : Nat) (x : Byte × Byte) : (flipPair p x).2.extractLsb' 0 3 = x.2.extractLsb' 0 3 := by
  unfold flipPair
  split
  next t ht =>
    cases t with
    | data i => rfl
    | code j => exact low_bits_toggleBit x.2 (code_bit_of_target ht).1
  next => rfl

/-! ### A toggle in place -/

/-- The pair that a toggle in place leaves at its offset. -/
theorem State.toggle_pair_same {p : Nat} {g : Target} (hg : target p = some g) (s : State) (o : Nat) :
    (s.toggle o g).dRead o = (flipPair p (s.dRead o, s.cRead o)).1 ∧
    (s.toggle o g).cRead o = (flipPair p (s.dRead o, s.cRead o)).2 := by
  have hpair := State.toggle_pair s o g o
  rw [if_pos rfl] at hpair
  simp only [flipPair, hg]
  exact Prod.mk.inj hpair

theorem State.samePair_toggle {a o : Nat} (h : a ≠ o) (s : State) (g : Target) : s.samePair (s.toggle o g) a := by
  have hpair := State.toggle_pair s o g a
  rw [if_neg h] at hpair
  exact Prod.mk.inj hpair

/-- A toggle in place touches the bank only, so it may come before a response or after it. -/
theorem State.respond_toggle (s : State) (r : ResponseWord) (o : Nat) (g : Target) :
    (s.respond r).toggle o g = (s.toggle o g).respond r := by
  cases g <;> rfl

/-- Beside the response, a toggle in place changes nothing of what the host sees. -/
theorem State.answered_respond_toggle (s : State) (o : Nat) (g : Target) (r : ResponseWord) :
    s.answered ((s.toggle o g).respond r) r := by
  simpa only [State.answered, State.toggle_host, State.toggle_params, State.toggle_hasBeenReset] using
    State.answered_respond (s.toggle o g) r

/-- Writing back what an offset held undoes a write; the canonical form makes the two arrays equal and not only alike. -/
theorem Memory.write_write_read {m : Memory} (h : m.wf) (a : Nat) (v : Byte) : (m.write a v).write a (m.read a) = m := by
  refine Memory.ext_of_read (Memory.wf_write (Memory.wf_write h _ _) _ _) h fun b => ?_
  by_cases hb : b = a
  · rw [hb, Memory.read_write_same]
  · rw [Memory.read_write_other _ hb, Memory.read_write_other _ hb]

/-- R70: a toggle in place is its own inverse. -/
theorem State.toggle_toggle {s : State} (hd : s.bank.dataMemory.wf) (hc : s.bank.codeMemory.wf) (o : Nat) (g : Target) :
    (s.toggle o g).toggle o g = s := by
  cases g with
  | data i =>
    simp only [State.toggle, State.dWrite_dRead_same, toggleBit_toggleBit]
    simp only [State.dWrite, State.dRead, Memory.write_write_read hd]
  | code j =>
    simp only [State.toggle, State.cWrite_cRead_same, toggleBit_toggleBit]
    simp only [State.cWrite, State.cRead, Memory.write_write_read hc]

/-! ### FLIP_BIT -/

/-- R76, R77: the response word of a bounds error of the position. -/
theorem responseWord_boundsPosition : responseWord .boundsPosition 0 0 = 0x0006 := by decide

/-- FLIP_BIT inside the bank at a position that selects a stored bit. -/
theorem exec_flipBit_inside {s : State} {o p : Nat} {g : Target} (h : o < s.params.memSize) (hg : target p = some g) :
    exec (.flipBit o p) s = .next ((s.toggle o g).respond 0x0000) := by
  rw [← responseWord_noError, ← finish_eq]
  refine (withOffset_inside h _).trans ?_
  rw [hg]

/-- FLIP_BIT inside the bank at a position that selects nothing. -/
theorem exec_flipBit_position {s : State} {o p : Nat} (h : o < s.params.memSize) (hp : 12 < p) :
    exec (.flipBit o p) s = .next (s.respond 0x0006) := by
  rw [← responseWord_boundsPosition, ← raise_eq]
  refine (withOffset_inside h _).trans ?_
  rw [(target_eq_none_iff p).2 hp]

/-- Settles O33: inside the bank the pair at the offset becomes its `flipPair`, which is one position of the encoded word
and no unused bit; in the two bounds cases only the response is added. -/
theorem flipTogglesExactlyOneStoredBit : Obligations.FlipTogglesExactlyOneStoredBit := by
  intro s o p
  refine ⟨fun ho hp => ?_, fun ho hp => ?_, fun ho => ?_⟩
  · obtain ⟨g, hg⟩ := exists_target hp
    obtain ⟨hdata, hcode⟩ := State.toggle_pair_same hg s o
    have hword : (s.toggle o g).wordAt o = s.wordAt o ^^^ positionMask p := by
      rw [State.wordAt, hdata, hcode, encodedWord_flipPair hp, State.wordAt]
    have hlow : ((s.toggle o g).cRead o).extractLsb' 0 3 = (s.cRead o).extractLsb' 0 3 := by
      rw [hcode, low_bits_flipPair]
    exact ⟨_, exec_flipBit_inside ho hg, hword, hlow, fun a ha => State.samePair_toggle ha s g,
      State.toggle_bank_traceEnable s o g, State.answered_respond_toggle s o g _⟩
  · exact ⟨_, exec_flipBit_position ho hp, rfl, State.answered_respond s _⟩
  · exact ⟨_, exec_flipBit_outside ho p, rfl, State.answered_respond s _⟩

/-- Two equal flips inside a canonical bank leave of themselves only their two responses. -/
theorem exec_flipBit_twice {s : State} {o p : Nat} (hd : s.bank.dataMemory.wf) (hc : s.bank.codeMemory.wf)
    (ho : o < s.params.memSize) (hp : p ≤ 12) :
    ∃ t, exec (.flipBit o p) s = .next t ∧ exec (.flipBit o p) t = .next ((s.respond 0x0000).respond 0x0000) := by
  obtain ⟨g, hg⟩ := exists_target hp
  have ho' : o < ((s.toggle o g).respond 0x0000).params.memSize := by
    rwa [State.respond_params, State.toggle_params]
  refine ⟨_, exec_flipBit_inside ho hg, ?_⟩
  rw [exec_flipBit_inside ho' hg, State.respond_toggle, State.toggle_toggle hd hc]

/-- Settles O34: the two flips cancel, so the READ finds the pair from before the first. -/
theorem flipTwiceRestores : Obligations.FlipTwiceRestores := by
  intro s o p hwf ho hp
  obtain ⟨hd, hc, -⟩ := hwf
  obtain ⟨t, ht, hu⟩ := exec_flipBit_twice hd hc ho hp
  let u := (s.respond 0x0000).respond 0x0000
  have hread := exec_read_inside (s := u) ho
  refine ⟨t, u, _, ht, hu, rfl, hread, fun hvalid => ?_⟩
  have hcode : u.cRead o = computeCodeword (u.dRead o) := hvalid
  refine (lastResponse_kind_of_read (s := u) ho hread .noError).2 ?_
  rw [hcode, pairKind_computeCodeword]

end Sys2Proof.Machine
end

section
/-! PROOFS. The bank control commands (43_control.md): each is one update of the block and the response NoError. -/

namespace Sys2Proof.Machine

/-- CREATE_BANK, with its response word as a number. -/
theorem exec_createBank (s : State) : exec .createBank s = .next (s.resetBlock.respond 0x0000) := by
  rw [← responseWord_noError, ← finish_eq]
  rfl

/-- SET_TRACE, with its response word as a number. -/
theorem exec_setTrace (s : State) (en : Bool) :
    exec (.setTrace en) s = .next ((s.setTraceEnable en).respond 0x0000) := by
  rw [← responseWord_noError, ← finish_eq]
  rfl

/-- Beside the response, the write of the trace flag changes nothing of what the host sees. -/
theorem State.answered_respond_setTraceEnable (s : State) (en : Bool) (r : ResponseWord) :
    s.answered ((s.setTraceEnable en).respond r) r :=
  State.answered_respond (s.setTraceEnable en) r

/-- Settles O36: the bank becomes the fresh one, whose values are those of R22; the reset of the block leaves the host's
side and the parameters alone. -/
theorem createBankZeroesTheBank : Obligations.CreateBankZeroesTheBank := by
  intro s
  let t := s.resetBlock.respond 0x0000
  have hbank : t.bank = Bank.zero := (State.respond_bank _ _).trans (State.resetBlock_bank s)
  have hentries (o : Nat) : t.dRead o = 0 ∧ t.cRead o = 0 := by
    obtain ⟨hd, hc, -⟩ := State.values_of_bank_zero hbank o
    exact ⟨hd, hc⟩
  have htrace : t.bank.traceEnable = false := congrArg Bank.traceEnable hbank
  have hreset : t.bank = State.reset.bank := hbank.trans (State.resetWith_bank _).symm
  obtain ⟨hresponses, hpending, hparams, hstanding⟩ := State.answered_respond s.resetBlock 0x0000
  exact ⟨t, exec_createBank s, hentries, htrace, hreset, hresponses, hpending, hparams,
    fun _ => hstanding.trans (State.resetBlock_hasBeenReset s)⟩

/-- Settles O37: the write of the flag and the response are all that happens. -/
theorem setTraceWritesOnlyTheFlag : Obligations.SetTraceWritesOnlyTheFlag := fun s en =>
  ⟨_, exec_setTrace s en, State.setTraceEnable_bank_traceEnable s en, State.setTraceEnable_bank_dataMemory s en,
    State.setTraceEnable_bank_codeMemory s en, State.answered_respond_setTraceEnable s en _⟩

end Sys2Proof.Machine
end

section
/-! PROOFS. Errors and their priority (60_exceptions.md): the kind that each command answers by the first check that fails,
and that a rejected command leaves of itself only its response. -/

namespace Sys2Proof

/-! ### The operands in a word of the port (R39, R40) -/

theorem posField_eq (w : Nat) : posField w = w / 8 % 16 := rfl

/-- The offset field is the top field, so in a word that fits the port nothing stands above it. -/
theorem offsetField_of_lt {W w : Nat} (h : w < 2 ^ (16 + W)) : offsetField W w = w / 65536 :=
  Nat.mod_eq_of_lt (Nat.div_lt_of_lt_mul (Nat.pow_add 2 16 W ▸ h))

/-- The opcode map is total: its words are commands or have an unassigned op (R41, R42). -/
theorem commandOf_ne_tooWide (op o p : Nat) (en : Bool) (b : Byte) : commandOf op o p en b ≠ .tooWide := by
  unfold commandOf
  split <;> nofun

end Sys2Proof

namespace Sys2Proof.Machine

/-- What READ classifies is never a rejection (R59, R76). -/
theorem classify_code_le : ∀ (S : Nibble) (m : Bool), (classify S m).code.toNat ≤ 4 := by decide

/-! ### What a command answers -/

/-- The kind that a command answers: the first check that fails, in the order of R79, else what the command reports. -/
def answerKind (s : State) : Instr → Kind
  | .write o _ => if s.params.memSize ≤ o then .boundsOffset else .noError
  | .read o => if s.params.memSize ≤ o then .boundsOffset else pairKind (s.dRead o) (s.cRead o)
  | .flipBit o p =>
    if s.params.memSize ≤ o then .boundsOffset else if 12 < p then .boundsPosition else .noError
  | .setTrace _ => .noError
  | .createBank => .noError

/-- An outcome from `s` whose last response has the kind `k`; where `k` is a rejection (codes 5 to 7 of R76), that response
is all that is new. -/
def Answers (s : State) (k : Kind) (x : Host.Outcome State Fault Refusal) : Prop :=
  ∃ t r, x = .next t ∧ t.lastResponse = some r ∧ respKind r = k.code ∧ (5 ≤ k.code.toNat → t = s.respond r)

section
variable {s u : State} {r : ResponseWord} {k : Kind} {x : Host.Outcome State Fault Refusal}

/-- Only a response is added: any kind may be answered so. -/
theorem Answers.of_respond (hx : x = .next (s.respond r)) (hk : respKind r = k.code) : Answers s k x :=
  ⟨_, r, hx, State.lastResponse_respond s r, hk, fun _ => rfl⟩

/-- The command is performed: its response is no rejection. -/
theorem Answers.of_performed (hx : x = .next (u.respond r)) (hk : respKind r = k.code) (hle : k.code.toNat ≤ 4) :
    Answers s k x :=
  ⟨_, r, hx, State.lastResponse_respond u r, hk, fun h => by omega⟩

end

/-- Every command answers its kind: one case for each way through its checks. -/
theorem exec_answers (s : State) (i : Instr) : Answers s (answerKind s i) (exec i s) := by
  cases i with
  | write o b =>
    by_cases ho : s.params.memSize ≤ o
    · rw [answerKind, if_pos ho]
      exact .of_respond (exec_write_outside ho b) rfl
    · rw [answerKind, if_neg ho]
      exact .of_performed (exec_write_inside (Nat.lt_of_not_le ho) b) rfl (by decide)
  | read o =>
    by_cases ho : s.params.memSize ≤ o
    · rw [answerKind, if_pos ho]
      exact .of_respond (exec_read_outside ho) rfl
    · rw [answerKind, if_neg ho]
      exact .of_performed (exec_read_inside (Nat.lt_of_not_le ho)) (respKind_responseWord _ _ _)
        (classify_code_le _ _)
  | flipBit o p =>
    by_cases ho : s.params.memSize ≤ o
    · rw [answerKind, if_pos ho]
      exact .of_respond (exec_flipBit_outside ho p) rfl
    · have hin : o < s.params.memSize := Nat.lt_of_not_le ho
      by_cases hp : 12 < p
      · rw [answerKind, if_neg ho, if_pos hp]
        exact .of_respond (exec_flipBit_position hin hp) rfl
      · obtain ⟨g, hg⟩ := exists_target (Nat.le_of_not_lt hp)
        rw [answerKind, if_neg ho, if_neg hp]
        exact .of_performed (exec_flipBit_inside hin hg) rfl (by decide)
  | setTrace en => exact .of_performed (k := .noError) (exec_setTrace s en) rfl (by decide)
  | createBank => exact .of_performed (k := .noError) (exec_createBank s) rfl (by decide)

/-! ### What a step on a word of the port answers -/

/-- After the first reset, a word that decodes to a command is taken and the command performed. -/
theorem step_of_instr {s : State} {w : Nat} {i : Instr} {rest : List HostInput}
    (hpending : s.host.pending = .command w :: rest) (hdecode : decode s.params.offsetW w = .instr i)
    (hreset : s.hasBeenReset = true) : step s = exec i (s.withPending rest) := by
  have hfetch : fetch s = .instr i (s.withPending rest) := by
    simp only [fetch, hpending, present, State.withPending_params, hdecode, State.takes,
      State.withPending_hasBeenReset, hreset, Bool.true_or, if_true]
  rw [step, hfetch]

/-- After the first reset every word of the port is answered: `IllegalCommand` where it decodes to no command, the
command's kind where it decodes to one. -/
theorem step_answers {s : State} {w : Nat} {rest : List HostInput} (hpending : s.host.pending = .command w :: rest)
    (hw : w < 2 ^ (16 + s.params.offsetW)) (hreset : s.hasBeenReset = true) :
    ∃ k, Answers (s.withPending rest) k (step s) ∧
      (∀ op, decode s.params.offsetW w = .illegalOp op → k = .illegalCommand) ∧
      (∀ i, decode s.params.offsetW w = .instr i → k = answerKind (s.withPending rest) i) := by
  cases hdecode : decode s.params.offsetW w with
  | instr i =>
    refine ⟨answerKind (s.withPending rest) i, ?_, nofun, fun j hj => by rw [Decoded.instr.inj hj]⟩
    rw [step_of_instr hpending hdecode hreset]
    exact exec_answers _ i
  | illegalOp op =>
    exact ⟨.illegalCommand, .of_respond (step_of_illegalOp hpending hdecode hreset) (respKind_responseWord _ _ _),
      fun _ _ => rfl, nofun⟩
  | tooWide =>
    exact absurd ((decode_of_lt hw).symm.trans hdecode) (commandOf_ne_tooWide _ _ _ _ _)

/-- Settles O41: the word decodes to the command of its op and fields, the step answers that command's kind, and each
clause is one way through the checks of `answerKind`. -/
theorem checksAnswerInPriorityOrder : Obligations.ChecksAnswerInPriorityOrder := by
  intro s w rest hpending hw hreset op pos outside
  have hdecode : decode s.params.offsetW w = commandOf op (w / 65536) pos (enField w) (dataField w) := by
    rw [decode_of_lt hw, offsetField_of_lt hw, posField_eq]
  obtain ⟨k, ⟨t, r, hstep, hlast, hkind, -⟩, hillegal, hinstr⟩ := step_answers hpending hw hreset
  have hcommand {i : Instr} (hi : commandOf op (w / 65536) pos (enField w) (dataField w) = .instr i) :
      respKind r = (answerKind (s.withPending rest) i).code := by
    rw [hkind, hinstr i (hdecode.trans hi)]
  have hwrite (hop : op = 1) : respKind r = (answerKind (s.withPending rest) (.write (w / 65536) (dataField w))).code :=
    hcommand (by rw [hop]; rfl)
  have hread (hop : op = 2) : respKind r = (answerKind (s.withPending rest) (.read (w / 65536))).code :=
    hcommand (by rw [hop]; rfl)
  have hflip (hop : op = 3) : respKind r = (answerKind (s.withPending rest) (.flipBit (w / 65536) pos)).code :=
    hcommand (by rw [hop]; rfl)
  refine ⟨t, r, hstep, hlast, fun hop => ?_, fun hop hout => ?_, fun hop hin hpos => ?_, fun hop hin => ?_,
    fun hop hin => ?_, fun hop hin hpos => ?_, fun hop => ?_⟩
  · rw [hkind, hillegal op (hdecode.trans (commandOf_unassigned hop _ _ _ _))]
    rfl
  · rcases hop with hop | hop | hop
    · exact (hwrite hop).trans (congrArg Kind.code (if_pos hout))
    · exact (hread hop).trans (congrArg Kind.code (if_pos hout))
    · exact (hflip hop).trans (congrArg Kind.code (if_pos hout))
  · exact (hflip hop).trans (congrArg Kind.code ((if_neg hin).trans (if_pos hpos)))
  · rw [hread hop, answerKind, State.withPending_params, if_neg hin]
    exact classify_code_le _ _
  · exact (hwrite hop).trans (congrArg Kind.code (if_neg hin))
  · exact (hflip hop).trans (congrArg Kind.code ((if_neg hin).trans (if_neg (Nat.not_lt.2 hpos))))
  · rcases hop with hop | hop
    · exact hcommand (i := .setTrace (enField w)) (by rw [hop]; rfl)
    · exact hcommand (i := .createBank) (by rw [hop]; rfl)

/-! ### Rejected commands -/

/-- R78 for a command: where the host reads a rejection, its response is all that the command left. -/
theorem eq_respond_of_exec_rejected {i : Instr} {s t : State} {r : ResponseWord} (hexec : exec i s = .next t)
    (hlast : t.lastResponse = some r) (hrejected : 5 ≤ (respKind r).toNat) : t = s.respond r := by
  obtain ⟨t', r', ht', hlast', hkind, hrespond⟩ := exec_answers s i
  obtain rfl : t = t' := Host.Outcome.next.inj (hexec.symm.trans ht')
  obtain rfl : r = r' := Option.some.inj (hlast.symm.trans hlast')
  exact hrespond (hkind ▸ hrejected)

/-- Settles O42: an unassigned op is answered before anything is done, and a command that answers a rejection leaves only
its response. -/
theorem rejectedCommandsChangeNothing : Obligations.RejectedCommandsChangeNothing := by
  intro s t w rest r hpending hstep hlast hkind
  have hrejected : 5 ≤ (respKind r).toNat := by
    rcases hkind with h | h | h <;> rw [h] <;> decide
  obtain ⟨rest', word, ht⟩ : ∃ rest' word, t = (s.withPending rest').respond word := by
    obtain ⟨rest', hreset, -⟩ | ⟨_, rest', _, -, -, -, ht⟩ | ⟨_, rest', i, -, -, -, hexec⟩ := step_next hstep
    · rw [hpending] at hreset
      injection hreset with hinput
      cases hinput
    · exact ⟨rest', _, ht⟩
    · exact ⟨rest', r, eq_respond_of_exec_rejected hexec hlast hrejected⟩
  rw [ht]
  exact ⟨rfl, rfl, rfl⟩

end Sys2Proof.Machine
end

section
/-! PROOFS. Encodings (30_encoding.md): the round trip of the encoder and the decoder, which words are commands, and the
words of the assembler. -/

namespace Sys2Proof

/-! ### The round trip -/

/-- Settles O1: the encoder packs the op and the operands of the command, 0 in the fields it does not use, and the decoder
reads a packed word back field by field. -/
theorem decodeOfEncode : Obligations.DecodeOfEncode := by
  intro W i hwf
  cases i with
  | write o b =>
    have ho : o < 2 ^ W := of_decide_eq_true hwf
    exact ⟨Laws.EncodeFits.write o b W hwf, decode_packWord (op := 1) (p := 0) (by decide) ho (by decide) false b⟩
  | read o =>
    have ho : o < 2 ^ W := of_decide_eq_true hwf
    exact ⟨Laws.EncodeFits.read o W hwf, decode_packWord (op := 2) (p := 0) (by decide) ho (by decide) false 0⟩
  | flipBit o p =>
    obtain ⟨ho, hp⟩ : o < 2 ^ W ∧ p < 16 := by simpa [Instr.wf] using hwf
    exact ⟨Laws.EncodeFits.flipBit o p W hwf, decode_packWord (op := 3) (by decide) ho hp false 0⟩
  | setTrace en =>
    exact ⟨Laws.EncodeFits.setTrace en W hwf,
      decode_packWord (op := 4) (p := 0) (by decide) (Nat.two_pow_pos W) (by decide) en 0⟩
  | createBank =>
    exact ⟨Laws.EncodeFits.createBank W hwf,
      decode_packWord (op := 5) (p := 0) (by decide) (Nat.two_pow_pos W) (by decide) false 0⟩

/-! ### Which words are commands -/

theorem decode_eq_tooWide_iff {W w : Nat} : decode W w = .tooWide ↔ 2 ^ (16 + W) ≤ w := by
  constructor
  · intro h
    by_contra hw
    rw [decode_of_lt (Nat.lt_of_not_le hw)] at h
    exact commandOf_ne_tooWide _ _ _ _ _ h
  · intro h
    exact if_neg (Nat.not_lt.2 h)

theorem lt_of_decode_eq_instr {W w : Nat} {i : Instr} (h : decode W w = .instr i) : w < 2 ^ (16 + W) := by
  by_contra hw
  rw [decode_eq_tooWide_iff.2 (Nat.le_of_not_lt hw)] at h
  cases h

/-- A command made of operands that fit their fields is well-formed. -/
theorem wf_of_commandOf {W op o p : Nat} {en : Bool} {b : Byte} {i : Instr} (ho : o < 2 ^ W) (hp : p < 16)
    (h : commandOf op o p en b = .instr i) : i.wf W = true := by
  unfold commandOf at h
  split at h <;> cases h <;> simp [Instr.wf, ho, hp]

/-- The five assigned ops stand for a command, whatever the fields hold (R41). -/
theorem exists_commandOf_eq_instr {op : Nat} (hop : op < 8) (h0 : op ≠ 0) (h6 : op ≠ 6) (h7 : op ≠ 7)
    (o p : Nat) (en : Bool) (b : Byte) : ∃ i, commandOf op o p en b = .instr i := by
  obtain rfl | rfl | rfl | rfl | rfl : op = 1 ∨ op = 2 ∨ op = 3 ∨ op = 4 ∨ op = 5 := by omega
  all_goals exact ⟨_, rfl⟩

/-- CREATE_BANK is the command of op 0b101 alone. -/
theorem commandOf_eq_createBank_iff {op o p : Nat} {en : Bool} {b : Byte} :
    commandOf op o p en b = .instr .createBank ↔ op = 5 := by
  unfold commandOf
  split <;> simp_all

/-- Settles O4: a word that decodes fits the port, and an operand read from a field is a value of that field. -/
theorem decodedCommandsAreWellFormed : Obligations.DecodedCommandsAreWellFormed := by
  intro W w i h
  have hw : w < 2 ^ (16 + W) := lt_of_decode_eq_instr h
  have hoffset : offsetField W w < 2 ^ W := Nat.mod_lt _ (Nat.two_pow_pos W)
  have hpos : posField w < 16 := Nat.mod_lt _ (by decide)
  exact ⟨wf_of_commandOf hoffset hpos ((decode_of_lt hw).symm.trans h), hw⟩

/-- Settles O5: the decoder refuses the words beyond the port, and on a word of the port the opcode map splits the eight
ops into the three unassigned and the five assigned ones. -/
theorem everyWordIsACommandOrIllegal : Obligations.EveryWordIsACommandOrIllegal := by
  intro W w
  refine ⟨decode_eq_tooWide_iff, fun hw hop => ?_, fun hw h0 h6 h7 => ?_⟩
  · exact (decode_of_lt hw).trans (commandOf_unassigned hop _ _ _ _)
  · rw [decode_of_lt hw]
    exact exists_commandOf_eq_instr (Nat.mod_lt _ (by decide)) h0 h6 h7 _ _ _ _

/-- Settles O3: eight closed words. -/
theorem listedWordsDecode : Obligations.ListedWordsDecode := by
  unfold Obligations.ListedWordsDecode
  decide

/-! ### The assembler (R46) -/

theorem fitting_eq_none_iff {bound v word : Nat} : fitting bound v word = none ↔ bound ≤ v := by
  unfold fitting
  split <;> simp <;> omega

theorem fitting_eq_some_iff {bound v word w : Nat} : fitting bound v word = some w ↔ v < bound ∧ word = w := by
  unfold fitting
  split <;> simp [*]

/-- A line with two operands is refused for either. -/
theorem fitting_bind_eq_none_iff {bound v word bound' v' : Nat} :
    (fitting bound v word).bind (fitting bound' v') = none ↔ bound ≤ v ∨ bound' ≤ v' := by
  by_cases hv : v < bound
  · simp [fitting, hv]
  · simp [fitting, hv, Nat.le_of_not_lt hv]

theorem fitting_bind_eq_some_iff {bound v word bound' v' w : Nat} :
    (fitting bound v word).bind (fitting bound' v') = some w ↔ v < bound ∧ v' < bound' ∧ word = w := by
  simp only [Option.bind_eq_some_iff, fitting_eq_some_iff]
  constructor
  · rintro ⟨_, ⟨hv, rfl⟩, hv', rfl⟩
    exact ⟨hv, hv', rfl⟩
  · rintro ⟨hv, hv', rfl⟩
    exact ⟨_, ⟨hv, rfl⟩, hv', rfl⟩

/-- Settles O6: each operand goes through `fitting` with the bound of its field. -/
theorem assemblerRefusesWhatDoesNotFit : Obligations.AssemblerRefusesWhatDoesNotFit := fun _ _ _ _ _ _ =>
  ⟨fitting_bind_eq_none_iff, fitting_eq_none_iff, fitting_bind_eq_none_iff, fitting_eq_none_iff, nofun,
    fitting_eq_none_iff⟩

/-- Settles O7: an accepted line's operands fit their fields, and its word is packed from them. -/
theorem assembledLinesDecodeToTheirCommands : Obligations.AssembledLinesDecodeToTheirCommands := by
  intro W o b p en w
  have hpos : 0 < 2 ^ W := Nat.two_pow_pos W
  refine ⟨fun h => ?_, fun h => ?_, fun h => ?_, fun h => ?_, fun h => ?_, fun h => ?_⟩
  · obtain ⟨ho, hb, rfl⟩ := fitting_bind_eq_some_iff.1 h
    have hbyte : (BitVec.ofNat 8 b).toNat = b := Nat.mod_eq_of_lt hb
    have hdecode := decode_packWord (op := 1) (p := 0) (by decide) ho (by decide) false (BitVec.ofNat 8 b)
    rw [hbyte] at hdecode
    exact ⟨hdecode, hb⟩
  · obtain ⟨ho, rfl⟩ := fitting_eq_some_iff.1 h
    exact decode_packWord (op := 2) (p := 0) (by decide) ho (by decide) false 0
  · obtain ⟨ho, hp, rfl⟩ := fitting_bind_eq_some_iff.1 h
    exact decode_packWord (op := 3) (by decide) ho hp false 0
  · obtain ⟨hen, rfl⟩ := fitting_eq_some_iff.1 h
    have henable : (en == 1).toNat = en := by interval_cases en <;> rfl
    have hdecode := decode_packWord (op := 4) (p := 0) (by decide) hpos (by decide) (en == 1) 0
    rw [henable] at hdecode
    exact ⟨hdecode, hen⟩
  · obtain rfl := Option.some.inj h
    exact decode_packWord (op := 5) (p := 0) (by decide) hpos (by decide) false 0
  · obtain ⟨-, rfl⟩ := fitting_eq_some_iff.1 h
    rfl

end Sys2Proof
end

section
/-! PROOFS. What a command can do to the block (10_state.md, 20_memory.md section 4, 60_exceptions.md section 3): one
relation with a row per update, one with a row per response, and what follows for every command alike. -/

namespace Sys2Proof.Machine

/-- What a command leaves of a state before its response goes out: nothing new, or its one update. -/
inductive Effect : Instr → State → State → Prop where
  /-- A rejected command, and a READ that has nothing to heal. -/
  | unchanged (i : Instr) (s : State) : Effect i s s
  | write {o : Nat} {s : State} (b : Byte) (ho : o < s.params.memSize) :
      Effect (.write o b) s ((s.dWrite o b).cWrite o (computeCodeword b))
  | heal {o : Nat} {s : State} (ho : o < s.params.memSize)
      (hkind : pairKind (s.dRead o) (s.cRead o) = .parityBitError) :
      Effect (.read o) s (s.cWrite o (healedCode (s.dRead o) (s.cRead o)))
  | flip {o p : Nat} {s : State} {g : Target} (ho : o < s.params.memSize) (hg : target p = some g) :
      Effect (.flipBit o p) s (s.toggle o g)
  | setTrace (en : Bool) (s : State) : Effect (.setTrace en) s (s.setTraceEnable en)
  | createBank (s : State) : Effect .createBank s s.resetBlock

theorem effect_selfHeal {o : Nat} {s : State} (ho : o < s.params.memSize) : Effect (.read o) s (s.selfHeal o) := by
  unfold State.selfHeal
  split
  next hkind => exact .heal ho hkind
  next => exact .unchanged _ s

/-- The words that a command may be answered with in a state. -/
inductive Reply (s : State) : Instr → ResponseWord → Prop where
  | noError (i : Instr) : Reply s i 0x0000
  | boundsOffset {i : Instr} (hi : (∃ o b, i = .write o b) ∨ (∃ o, i = .read o) ∨ ∃ o p, i = .flipBit o p) :
      Reply s i 0x0005
  | boundsPosition (o p : Nat) : Reply s (.flipBit o p) 0x0006
  | classified (o : Nat) : Reply s (.read o) (readResponse (s.dRead o) (s.cRead o))

/-- Every command in every state makes its update and gives one response. -/
theorem exec_next (i : Instr) (s : State) :
    ∃ u r, Effect i s u ∧ Reply s i r ∧ exec i s = .next (u.respond r) := by
  cases i with
  | write o b =>
    rcases Nat.lt_or_ge o s.params.memSize with ho | ho
    · exact ⟨_, _, .write b ho, .noError _, exec_write_inside ho b⟩
    · exact ⟨_, _, .unchanged _ s, .boundsOffset (.inl ⟨o, b, rfl⟩), exec_write_outside ho b⟩
  | read o =>
    rcases Nat.lt_or_ge o s.params.memSize with ho | ho
    · exact ⟨_, _, effect_selfHeal ho, .classified o, exec_read_inside ho⟩
    · exact ⟨_, _, .unchanged _ s, .boundsOffset (.inr (.inl ⟨o, rfl⟩)), exec_read_outside ho⟩
  | flipBit o p =>
    rcases Nat.lt_or_ge o s.params.memSize with ho | ho
    · rcases Nat.lt_or_ge 12 p with hp | hp
      · exact ⟨_, _, .unchanged _ s, .boundsPosition o p, exec_flipBit_position ho hp⟩
      · obtain ⟨g, hg⟩ := exists_target hp
        exact ⟨_, _, .flip ho hg, .noError _, exec_flipBit_inside ho hg⟩
    · exact ⟨_, _, .unchanged _ s, .boundsOffset (.inr (.inr ⟨o, p, rfl⟩)), exec_flipBit_outside ho p⟩
  | setTrace en => exact ⟨_, _, .setTrace en s, .noError _, exec_setTrace s en⟩
  | createBank => exact ⟨_, _, .createBank s, .noError _, exec_createBank s⟩

theorem exec_effect (i : Instr) (s : State) : ∃ u r, Effect i s u ∧ exec i s = .next (u.respond r) := by
  obtain ⟨u, r, hu, -, hexec⟩ := exec_next i s
  exact ⟨u, r, hu, hexec⟩

/-- All that a command can do when it answers a next state. -/
theorem effect_of_exec {i : Instr} {s t : State} (h : exec i s = .next t) :
    ∃ u r, Effect i s u ∧ t = u.respond r := by
  obtain ⟨u, r, hu, hexec⟩ := exec_effect i s
  exact ⟨u, r, hu, Host.Outcome.next.inj (h.symm.trans hexec)⟩

section
variable {i : Instr} {s u : State}

theorem Effect.host (h : Effect i s u) : u.host = s.host := by
  cases h with
  | flip ho hg => exact State.toggle_host _ _ _
  | unchanged | write | heal | setTrace | createBank => rfl

theorem Effect.params (h : Effect i s u) : u.params = s.params := by
  cases h with
  | flip ho hg => exact State.toggle_params _ _ _
  | unchanged | write | heal | setTrace | createBank => rfl

/-- No command takes back the first reset (R91). -/
theorem Effect.hasBeenReset (h : Effect i s u) (hs : s.hasBeenReset = true) : u.hasBeenReset = true := by
  cases h with
  | flip ho hg => rwa [State.toggle_hasBeenReset]
  | createBank => rfl
  | unchanged | write | heal | setTrace => exact hs

/-- The pair at an offset that the command does not reach stays as it is. -/
theorem Effect.samePair (h : Effect i s u) {a : Nat} (ha : ¬ i.reaches a) : s.samePair u a := by
  cases h with
  | write b ho => exact State.samePair_writes (Ne.symm ha) s b _
  | heal ho hkind => exact ⟨rfl, by rw [State.cWrite_cRead, if_neg (Ne.symm ha)]⟩
  | flip ho hg => exact State.samePair_toggle (Ne.symm ha) s _
  | createBank => exact absurd trivial ha
  | unchanged | setTrace => exact ⟨rfl, rfl⟩

/-- R18: two commands write the trace flag. -/
theorem Effect.traceEnable (h : Effect i s u) (hne : u.bank.traceEnable ≠ s.bank.traceEnable) :
    i = .setTrace u.bank.traceEnable ∨ i = .createBank ∧ u.bank.traceEnable = false := by
  cases h with
  | flip ho hg => exact absurd (State.toggle_bank_traceEnable _ _ _) hne
  | setTrace => exact .inl rfl
  | createBank => exact .inr ⟨rfl, rfl⟩
  | unchanged | write | heal => exact absurd rfl hne

end

/-- Settles O44: the update keeps the host's side and the parameters, and the response is the one thing that comes to the
host. -/
theorem everyCommandIsAnswered : Obligations.EveryCommandIsAnswered := by
  intro i s
  obtain ⟨u, r, hu, hexec⟩ := exec_effect i s
  refine ⟨_, r, hexec, ?_, ?_, hu.params, hu.hasBeenReset⟩
  · rw [State.respond_host_responses, hu.host]
  · rw [State.respond_host_pending, hu.host]

/-- Settles O45, by `Effect.samePair`. -/
theorem commandsLeaveOtherOffsetsAlone : Obligations.CommandsLeaveOtherOffsetsAlone := by
  intro i s t a ha hexec
  obtain ⟨u, r, hu, rfl⟩ := effect_of_exec hexec
  exact hu.samePair ha

/-! ### Inputs that are no command (R23, R89, R92) -/

theorem step_of_reset {s : State} {rest : List HostInput} (h : s.host.pending = .reset :: rest) :
    step s = .next (s.withPending rest).resetBlock := by
  have hfetch : fetch s = .hardReset (s.withPending rest) := by simp only [fetch, h]
  rw [step, hfetch]
  rfl

theorem step_of_noInput {s : State} (h : s.host.pending = []) : step s = .refused .noInput := by
  have hfetch : fetch s = .nothing := by simp only [fetch, h]
  rw [step, hfetch]

theorem fetch_of_command {s : State} {w : Nat} {rest : List HostInput} (h : s.host.pending = .command w :: rest) :
    fetch s = present w (s.withPending rest) := by
  simp only [fetch, h]

theorem step_of_tooWide {s : State} {w : Nat} {rest : List HostInput} (h : s.host.pending = .command w :: rest)
    (hw : 2 ^ (16 + s.params.offsetW) ≤ w) : step s = .refused .notACommandWord := by
  have hpresent : present w (s.withPending rest) = .notACommandWord := by
    simp only [present, State.withPending_params, decode_eq_tooWide_iff.2 hw]
  rw [step, fetch_of_command h, hpresent]

/-- A word that decodes to a command that the block takes is performed. -/
theorem step_of_takes {s : State} {w : Nat} {i : Instr} {rest : List HostInput}
    (h : s.host.pending = .command w :: rest) (hdecode : decode s.params.offsetW w = .instr i)
    (htakes : s.takes i = true) : step s = exec i (s.withPending rest) := by
  have hpresent : present w (s.withPending rest) = .instr i (s.withPending rest) := by
    have htakes' : (s.withPending rest).takes i = true := htakes
    simp only [present, State.withPending_params, hdecode, htakes', if_true]
  rw [step, fetch_of_command h, hpresent]

/-- Before the first reset every word of the port but that of CREATE_BANK comes too early. -/
theorem step_of_tooEarly {s : State} {w : Nat} {rest : List HostInput} (h : s.host.pending = .command w :: rest)
    (hw : w < 2 ^ (16 + s.params.offsetW)) (hreset : s.hasBeenReset = false)
    (hne : decode s.params.offsetW w ≠ .instr .createBank) : step s = .refused .beforeReset := by
  have hpresent : present w (s.withPending rest) = .tooEarly := by
    unfold present
    rw [State.withPending_params]
    cases hdecode : decode s.params.offsetW w with
    | tooWide => exact absurd hw (Nat.not_lt.2 (decode_eq_tooWide_iff.1 hdecode))
    | illegalOp op => exact if_neg (by simp [hreset])
    | instr i =>
      have hi : i ≠ .createBank := fun e => hne (by rw [hdecode, e])
      exact if_neg (by simp [State.takes, hreset, hi])
  rw [step, fetch_of_command h, hpresent]

/-- Settles O9, by `step_of_takes`. -/
theorem stepRunsTheDecodedCommand : Obligations.StepRunsTheDecodedCommand := by
  intro s w rest i hpending hdecode htakes
  refine step_of_takes hpending hdecode ?_
  rw [State.takes, Bool.or_eq_true, beq_iff_eq]
  exact htakes

/-- Settles O14: the two ways in which the port presents no command word. -/
theorem stepsThatAreNoCommand : Obligations.StepsThatAreNoCommand :=
  ⟨fun _ => step_of_noInput, fun _ _ _ => step_of_tooWide⟩

/-- Settles O11: among the words of the port, op 0b101 is CREATE_BANK, which the block takes before its first reset, and
every other op comes too early. -/
theorem commandsBeforeTheFirstReset : Obligations.CommandsBeforeTheFirstReset := by
  intro s w rest hpending hw hreset
  have hop : decode s.params.offsetW w = .instr .createBank ↔ w % 8 = 5 := by
    rw [decode_of_lt hw, commandOf_eq_createBank_iff]
  refine ⟨fun h5 => step_of_tooEarly hpending hw hreset (mt hop.1 h5), fun h5 => ?_⟩
  have htakes : s.takes .createBank = true := by simp [State.takes]
  have hstep := (step_of_takes hpending (hop.2 h5) htakes).trans (exec_createBank _)
  exact ⟨_, hstep, rfl, rfl, rfl⟩

/-- Settles O12: a reset input makes the update of CREATE_BANK and nothing else. -/
theorem hardwareResetZeroesTheBlock : Obligations.HardwareResetZeroesTheBlock := by
  intro s rest hpending
  have hentries (o : Nat) :
      (s.withPending rest).resetBlock.dRead o = 0 ∧ (s.withPending rest).resetBlock.cRead o = 0 :=
    ⟨State.resetBlock_dRead _ o, State.resetBlock_cRead _ o⟩
  exact ⟨_, step_of_reset hpending, hentries, rfl, fun u hu => (bank_of_exec_createBank hu).symm, rfl, rfl, rfl⟩

/-! ### The trace flag (R18) -/

/-- Settles O38: a step makes the update of a reset or of one command, and `Effect.traceEnable` says which commands write
the flag. -/
theorem traceFlagChangesOnlyByControl : Obligations.TraceFlagChangesOnlyByControl := by
  intro s t hstep hne
  obtain ⟨rest, hpending, -⟩ | ⟨w, rest, op, -, -, -, rfl⟩ | ⟨w, rest, i, hpending, hdecode, -, hexec⟩ := step_next hstep
  · exact .inl ⟨rest, hpending⟩
  · exact absurd rfl hne
  · obtain ⟨u, r, hu, rfl⟩ := effect_of_exec hexec
    refine .inr ⟨w, rest, hpending, ?_⟩
    obtain hi | ⟨hi, hfalse⟩ := hu.traceEnable hne
    · exact .inl (by rw [hdecode, hi]; rfl)
    · exact .inr ⟨by rw [hdecode, hi], hfalse⟩

theorem State.selfHeal_setTraceEnable (s : State) (en : Bool) (o : Nat) :
    (s.setTraceEnable en).selfHeal o = (s.selfHeal o).setTraceEnable en := by
  rw [State.selfHeal, State.selfHeal, apply_ite (State.setTraceEnable · en)]
  rfl

theorem State.toggle_setTraceEnable (s : State) (en : Bool) (o : Nat) (g : Target) :
    (s.setTraceEnable en).toggle o g = (s.toggle o g).setTraceEnable en := by
  cases g <;> rfl

/-- A command does the same whatever the trace flag holds; the flag goes with the state or is what the command makes it. -/
theorem exec_setTraceEnable (i : Instr) (s : State) (en : Bool) :
    ∃ t en', exec i s = .next t ∧ exec i (s.setTraceEnable en) = .next (t.setTraceEnable en') := by
  cases i with
  | write o b =>
    rcases Nat.lt_or_ge o s.params.memSize with ho | ho
    · exact ⟨_, en, exec_write_inside ho b, exec_write_inside (s := s.setTraceEnable en) ho b⟩
    · exact ⟨_, en, exec_write_outside ho b, exec_write_outside (s := s.setTraceEnable en) ho b⟩
  | read o =>
    rcases Nat.lt_or_ge o s.params.memSize with ho | ho
    · have hexec := exec_read_inside (s := s.setTraceEnable en) ho
      rw [State.selfHeal_setTraceEnable] at hexec
      exact ⟨_, en, exec_read_inside ho, hexec⟩
    · exact ⟨_, en, exec_read_outside ho, exec_read_outside (s := s.setTraceEnable en) ho⟩
  | flipBit o p =>
    rcases Nat.lt_or_ge o s.params.memSize with ho | ho
    · rcases Nat.lt_or_ge 12 p with hp | hp
      · exact ⟨_, en, exec_flipBit_position ho hp, exec_flipBit_position (s := s.setTraceEnable en) ho hp⟩
      · obtain ⟨g, hg⟩ := exists_target hp
        have hexec := exec_flipBit_inside (s := s.setTraceEnable en) ho hg
        rw [State.toggle_setTraceEnable] at hexec
        exact ⟨_, en, exec_flipBit_inside ho hg, hexec⟩
    · exact ⟨_, en, exec_flipBit_outside ho p, exec_flipBit_outside (s := s.setTraceEnable en) ho p⟩
  | setTrace en' => exact ⟨_, en', exec_setTrace s en', exec_setTrace (s.setTraceEnable en) en'⟩
  | createBank => exact ⟨_, false, exec_createBank s, exec_createBank (s.setTraceEnable en)⟩

/-- The step lemma of "equal but for the trace flag". -/
theorem step_setTraceEnable {s t : State} (h : step s = .next t) (en : Bool) :
    ∃ en', step (s.setTraceEnable en) = .next (t.setTraceEnable en') := by
  obtain ⟨rest, hpending, rfl⟩ | ⟨w, rest, op, hpending, hdecode, hreset, rfl⟩ |
    ⟨w, rest, i, hpending, hdecode, htakes, hexec⟩ := step_next h
  · exact ⟨false, step_of_reset (s := s.setTraceEnable en) hpending⟩
  · exact ⟨en, step_of_illegalOp (s := s.setTraceEnable en) hpending hdecode hreset⟩
  · obtain ⟨t', en', ht', hflag⟩ := exec_setTraceEnable i (s.withPending rest) en
    obtain rfl : t = t' := Host.Outcome.next.inj (hexec.symm.trans ht')
    exact ⟨en', (stepRunsTheDecodedCommand (s.setTraceEnable en) w rest i hpending hdecode htakes).trans hflag⟩

/-- "Equal but for the trace flag" along a run. -/
theorem run_setTraceEnable {n : Nat} {s t : State} (h : core.run n s = .next t) (en : Bool) :
    ∃ en', core.run n (s.setTraceEnable en) = .next (t.setTraceEnable en') := by
  induction n generalizing s en with
  | zero =>
    obtain rfl : s = t := Host.Outcome.next.inj h
    exact ⟨en, rfl⟩
  | succ n ih =>
    obtain ⟨u, hstep, hrun⟩ := core_run_succ_inversion h
    obtain ⟨en₁, hstep₁⟩ := step_setTraceEnable hstep en
    obtain ⟨en₂, hrun₂⟩ := ih hrun en₁
    exact ⟨en₂, (core_run_succ hstep₁).trans hrun₂⟩

/-- Settles O39: the two runs stay equal but for the flag. -/
theorem traceFlagNeverReachesAResponse : Obligations.TraceFlagNeverReachesAResponse := by
  intro n s t en hrun
  obtain ⟨en', hrun'⟩ := run_setTraceEnable hrun en
  exact ⟨_, hrun', State.setTraceEnable_host t en', rfl, rfl, rfl, rfl⟩

end Sys2Proof.Machine
end

section
/-! PROOFS. Invariants and runs (10_state.md, 70_reset_and_hazards.md section 2): what every command keeps, and so every
step and every run. -/

namespace Sys2Proof.Machine

/-! ### The bank in its one form -/

/-- What an array reads as is 0x00 or one of its entries. -/
theorem Memory.read_eq_zero_or_mem (m : Memory) (a : Nat) : m.read a = 0 ∨ (a, m.read a) ∈ m := by
  induction m with
  | nil => exact .inl rfl
  | cons x m ih =>
    obtain ⟨k, v⟩ := x
    rw [Memory.read_cons]
    split
    next hk => exact .inr (hk ▸ List.mem_cons_self)
    next => exact ih.imp_right (List.mem_cons_of_mem _)

/-- Where the entries of the code array have unused bits 0, so have all its reads. -/
theorem low_bits_cRead {s : State} {n : Nat} (h : s.bank.wf n) (a : Nat) : (s.cRead a).extractLsb' 0 3 = 0 := by
  obtain ⟨-, -, -, -, hlow⟩ := h
  rcases Memory.read_eq_zero_or_mem s.bank.codeMemory a with h0 | hmem
  · rw [State.cRead, h0]
    rfl
  · exact hlow _ hmem

section
variable {s : State} {n o : Nat} (h : s.bank.wf n) (ho : o < n) (v : Byte)
include h ho

theorem State.bank_wf_dWrite : (s.dWrite o v).bank.wf n := by
  obtain ⟨hd, hc, hdn, hcn, hlow⟩ := h
  exact ⟨Memory.wf_write hd o v, hc, Memory.within_write hdn ho v, hcn, hlow⟩

theorem State.bank_wf_cWrite (hv : v.extractLsb' 0 3 = 0) : (s.cWrite o v).bank.wf n := by
  obtain ⟨hd, hc, hdn, hcn, hlow⟩ := h
  refine ⟨hd, Memory.wf_write hc o v, hdn, Memory.within_write hcn ho v, fun x hx => ?_⟩
  rcases Memory.mem_write hx with ⟨rfl, -⟩ | ⟨hx, -⟩
  · exact hv
  · exact hlow x hx

/-- Only bits above 2 of a code byte have a position, so a flip keeps the form (R68). -/
theorem State.bank_wf_toggle {p : Nat} {g : Target} (hg : target p = some g) : (s.toggle o g).bank.wf n := by
  cases g with
  | data i => exact State.bank_wf_dWrite h ho _
  | code j =>
    exact State.bank_wf_cWrite h ho _ ((low_bits_toggleBit _ (code_bit_of_target hg).1).trans (low_bits_cRead h o))

end

theorem Bank.wf_zero (n : Nat) : Bank.zero.wf n := ⟨Memory.wf_nil, Memory.wf_nil, nofun, nofun, nofun⟩

/-- Every command keeps the bank in its one form. -/
theorem Effect.bank_wf {i : Instr} {s u : State} (h : Effect i s u) (hwf : s.bank.wf s.params.memSize) :
    u.bank.wf s.params.memSize := by
  cases h with
  | write b ho =>
    exact State.bank_wf_cWrite (State.bank_wf_dWrite hwf ho b) ho _ (low_bits_computeCodeword b)
  | heal ho hkind =>
    exact State.bank_wf_cWrite hwf ho _ ((low_bits_healedCode _ _).trans (low_bits_cRead hwf _))
  | flip ho hg => exact State.bank_wf_toggle hwf ho hg
  | createBank => exact Bank.wf_zero _
  | unchanged | setTrace => exact hwf

/-! ### What every command keeps of the stored pairs -/

/-- R14: no command writes the unused bits of a code byte. -/
theorem Effect.low_bits {i : Instr} {s u : State} (h : Effect i s u) (hs : ∀ a, (s.cRead a).extractLsb' 0 3 = 0)
    (a : Nat) : (u.cRead a).extractLsb' 0 3 = 0 := by
  by_cases hreach : i.reaches a
  · cases h with
    | write b ho =>
      obtain rfl : _ = a := hreach
      rw [State.cWrite_cRead_same, low_bits_computeCodeword]
    | heal ho hkind =>
      obtain rfl : _ = a := hreach
      rw [State.cWrite_cRead_same, low_bits_healedCode, hs]
    | flip ho hg =>
      obtain rfl : _ = a := hreach
      rw [(State.toggle_pair_same hg s _).2, low_bits_flipPair, hs]
    | createBank => rfl
    | unchanged | setTrace => exact hs a
  · rw [(h.samePair hreach).2, hs]

/-- R13: only a FLIP_BIT at its offset can make a valid pair invalid; the self-heal does not occur there. -/
theorem Effect.validAt {i : Instr} {s u : State} (h : Effect i s u) {a : Nat} (hs : s.validAt a)
    (hi : ∀ p, i ≠ .flipBit a p) : u.validAt a := by
  by_cases hreach : i.reaches a
  · cases h with
    | write b ho =>
      obtain rfl : _ = a := hreach
      rw [State.validAt, State.cWrite_cRead_same, State.cWrite_dRead, State.dWrite_dRead_same]
    | heal ho hkind =>
      obtain rfl : _ = a := hreach
      have hcode : s.cRead _ = computeCodeword (s.dRead _) := hs
      rw [hcode, pairKind_computeCodeword] at hkind
      cases hkind
    | flip ho hg =>
      obtain rfl : _ = a := hreach
      exact absurd rfl (hi _)
    | createBank => exact computeCodeword_zero.symm
    | unchanged | setTrace => exact hs
  · obtain ⟨hdata, hcode⟩ := h.samePair hreach
    rw [State.validAt, hdata, hcode]
    exact hs

/-! ### What a step keeps -/

/-- A step takes one input and makes the update of one command: of the command that the input decodes to, or of CREATE_BANK
for a reset, or none. -/
theorem effect_of_step {s t : State} (h : step s = .next t) :
    ∃ x rest i u, s.host.pending = x :: rest ∧ Effect i (s.withPending rest) u ∧
      (i = .createBank ∨ ∃ w, x = .command w ∧ decode s.params.offsetW w = .instr i) ∧
      t.bank = u.bank ∧ t.params = s.params ∧ t.host.pending = rest := by
  obtain ⟨rest, hpending, rfl⟩ | ⟨w, rest, op, hpending, -, -, rfl⟩ | ⟨w, rest, i, hpending, hdecode, -, hexec⟩ :=
    step_next h
  · exact ⟨_, rest, _, _, hpending, .createBank _, .inl rfl, rfl, rfl, rfl⟩
  · exact ⟨_, rest, _, _, hpending, .unchanged .createBank _, .inl rfl, rfl, rfl, rfl⟩
  · obtain ⟨u, r, hu, rfl⟩ := effect_of_exec hexec
    exact ⟨_, rest, i, u, hpending, hu, .inr ⟨w, rfl, hdecode⟩, rfl, hu.params, congrArg HostSide.pending hu.host⟩

theorem State.dRead_congr {s t : State} (h : t.bank = s.bank) (a : Nat) : t.dRead a = s.dRead a := by
  rw [State.dRead, h, State.dRead]

theorem State.cRead_congr {s t : State} (h : t.bank = s.bank) (a : Nat) : t.cRead a = s.cRead a := by
  rw [State.cRead, h, State.cRead]

theorem State.validAt_congr {s t : State} (h : t.bank = s.bank) {a : Nat} (hs : s.validAt a) : t.validAt a := by
  rw [State.validAt, State.dRead_congr h, State.cRead_congr h]
  exact hs

/-- Settles O47: the fresh bank is in its one form, and no input waits. -/
theorem invariantHoldsAtReset : Obligations.InvariantHoldsAtReset := by
  have hreset (p : Params) (hp : p.wf) : (State.resetWith p).Inv := ⟨hp, Bank.wf_zero _, nofun⟩
  exact ⟨hreset, hreset Params.vectors (by decide)⟩

/-- Settles O48: the update keeps the bank in its one form, no step changes the parameters, and the inputs that wait after a
step waited before it. -/
theorem stepKeepsTheInvariant : Obligations.StepKeepsTheInvariant := by
  intro s t hinv hstep
  obtain ⟨hparams, hbank, hfits⟩ := hinv
  obtain ⟨x, rest, i, u, hpending, hu, -, htbank, htparams, htpending⟩ := effect_of_step hstep
  have hwf : u.bank.wf s.params.memSize := hu.bank_wf hbank
  rw [State.Inv, htparams, htbank, htpending]
  exact ⟨hparams, hwf, fun y hy => hfits y (hpending ▸ List.mem_cons_of_mem x hy)⟩

/-- Settles O49, by `Effect.low_bits`. -/
theorem unusedCodeBitsStayZero : Obligations.UnusedCodeBitsStayZero := by
  refine ⟨fun p o => rfl, fun s t hs hstep o => ?_⟩
  obtain ⟨x, rest, i, u, -, hu, -, htbank, -, -⟩ := effect_of_step hstep
  rw [State.cRead_congr htbank]
  exact hu.low_bits hs o

/-- Settles O50: CREATE_BANK and WRITE make a valid pair, and `Effect.validAt` keeps it. -/
theorem validPairsStayValidUntilFlipped : Obligations.ValidPairsStayValidUntilFlipped := by
  refine ⟨fun s t o h => ?_, fun s t o b ho h => ?_, fun s t o hs hstep hnoflip => ?_⟩
  · obtain ⟨-, -, -, hvalid⟩ := State.values_of_bank_zero (bank_of_exec_createBank h) o
    exact hvalid
  · rw [exec_write_inside ho] at h
    obtain rfl := Host.Outcome.next.inj h
    rw [State.validAt, State.respond_dRead, State.respond_cRead, State.cWrite_cRead_same, State.cWrite_dRead,
      State.dWrite_dRead_same]
  · obtain ⟨x, rest, i, u, hpending, hu, hi, htbank, -, -⟩ := effect_of_step hstep
    refine State.validAt_congr htbank (hu.validAt hs fun p hflip => ?_)
    obtain hcreate | ⟨w, rfl, hdecode⟩ := hi
    · rw [hcreate] at hflip
      cases hflip
    · exact hnoflip w rest p hpending (hflip ▸ hdecode)

/-! ### Runs -/

/-- After the first reset a step always takes its input, and it answers a command with one response and a reset with none. -/
theorem step_takes_input {s : State} {x : HostInput} {rest : List HostInput} (hfits : x.fits s.params.offsetW = true)
    (hreset : s.hasBeenReset = true) (hpending : s.host.pending = x :: rest) :
    ∃ t l, step s = .next t ∧ t.host = { pending := rest, responses := s.host.responses ++ l } ∧
      l.length = commandCount [x] ∧ t.params = s.params ∧ t.hasBeenReset = true := by
  cases x with
  | reset =>
    refine ⟨_, [], step_of_reset hpending, ?_, rfl, rfl, rfl⟩
    rw [List.append_nil]
    rfl
  | command w =>
    have hw : w < 2 ^ (16 + s.params.offsetW) := of_decide_eq_true hfits
    cases hdecode : decode s.params.offsetW w with
    | tooWide => exact absurd hw (Nat.not_lt.2 (decode_eq_tooWide_iff.1 hdecode))
    | illegalOp op => exact ⟨_, [_], step_of_illegalOp hpending hdecode hreset, rfl, rfl, rfl, hreset⟩
    | instr i =>
      obtain ⟨u, r, hu, hexec⟩ := exec_effect i (s.withPending rest)
      refine ⟨_, [r], (step_of_instr hpending hdecode hreset).trans hexec, ?_, rfl, hu.params, hu.hasBeenReset hreset⟩
      rw [State.respond, hu.host]
      rfl

/-- Settles O51: with the invariant, the input that waits fits the port. -/
theorem stepTakesOneInput : Obligations.StepTakesOneInput := by
  intro s x rest hinv hreset hpending
  obtain ⟨-, -, hfits⟩ := hinv
  obtain ⟨t, l, hstep, hhost, hl, hparams, hreset'⟩ :=
    step_takes_input (hfits x (hpending ▸ List.mem_cons_self)) hreset hpending
  refine ⟨t, hstep, by rw [hhost], ?_, ?_, hparams, hreset'⟩
  · rw [State.programIndex, hhost, List.length_append, hl, State.programIndex]
  · rw [hhost]
    exact List.prefix_append _ _

theorem commandCount_cons (x : HostInput) (l : List HostInput) :
    commandCount (x :: l) = commandCount [x] + commandCount l :=
  List.countP_append (l₁ := [x])

/-- Settles O52: step by step along the list of inputs, the invariant being kept by each step. -/
theorem runAnswersEveryCommand : Obligations.RunAnswersEveryCommand := by
  intro s
  generalize hl : s.host.pending = l
  induction l generalizing s with
  | nil => exact fun _ _ => ⟨s, rfl, hl, rfl, List.prefix_rfl⟩
  | cons x rest ih =>
    intro hinv hreset
    obtain ⟨t, hstep, hpending, hindex, hprefix, -, hreset'⟩ := stepTakesOneInput s x rest hinv hreset hl
    obtain ⟨u, hrun, hnone, hindex', hprefix'⟩ := ih t hpending (stepKeepsTheInvariant s t hinv hstep) hreset'
    refine ⟨u, (core_run_succ hstep).trans hrun, hnone, ?_, hprefix.trans hprefix'⟩
    rw [hindex', hindex, commandCount_cons x rest, Nat.add_assoc]

end Sys2Proof.Machine
end

section
/-! PROOFS. Error patterns and flips (41_decoder_read.md section 4, 42_bit_flip_injector.md): a pattern that grows by one
position, the flips of the injector on the stored pair, and what the READ after a WRITE and some flips reports. -/

namespace Sys2Proof.Machine

/-! ### Patterns and flips are linear -/

theorem flipPair_flipPair (p : Nat) (x : Byte × Byte) : flipPair p (flipPair p x) = x := by
  unfold flipPair
  split
  next t _ => cases t <;> simp [toggleTarget, toggleBit_toggleBit]
  next => rfl

theorem xorPair_comm (x y : Byte × Byte) : xorPair x y = xorPair y x := by
  ext1 <;> exact BitVec.xor_comm _ _

theorem flipPair_xorPair_left (p : Nat) (x y : Byte × Byte) : flipPair p (xorPair x y) = xorPair (flipPair p x) y := by
  rw [xorPair_comm, flipPair_xorPair, xorPair_comm]

theorem flipPair_comm (p q : Nat) (x : Byte × Byte) : flipPair p (flipPair q x) = flipPair q (flipPair p x) := by
  rw [flipPair_eq_xorPair q x, flipPair_xorPair_left, ← flipPair_eq_xorPair]

/-- One step of applying a pattern (R9). -/
def flipIfSet (e : Word13) (x : Byte × Byte) (k : Nat) : Byte × Byte := if positionSet e k then flipPair k x else x

/-- A position set in both patterns toggles its bit in both pairs, and so not in their XOR. -/
theorem flipIfSet_xor (e f : Word13) (x y : Byte × Byte) (k : Nat) :
    flipIfSet (e ^^^ f) (xorPair x y) k = xorPair (flipIfSet e x k) (flipIfSet f y k) := by
  have hset : positionSet (e ^^^ f) k = (positionSet e k ^^ positionSet f k) := BitVec.getLsbD_xor
  rw [flipIfSet, flipIfSet, flipIfSet, hset]
  cases positionSet e k <;> cases positionSet f k
  case false.false => rfl
  case false.true => exact flipPair_xorPair k x y
  case true.false => exact flipPair_xorPair_left k x y
  case true.true =>
    show xorPair x y = xorPair (flipPair k x) (flipPair k y)
    rw [← flipPair_xorPair, ← flipPair_xorPair_left, flipPair_flipPair]

/-- Patterns add up as the pairs do. -/
theorem applyPattern_xor (e f : Word13) (x y : Byte × Byte) :
    applyPattern (e ^^^ f) (xorPair x y) = xorPair (applyPattern e x) (applyPattern f y) :=
  List.foldl_hom₂ (List.range 13) xorPair (flipIfSet e) (flipIfSet f) (flipIfSet (e ^^^ f)) x y
    fun x y k => (flipIfSet_xor e f x y k).symm

/-- R71: one more flip changes the pattern by its position. -/
theorem applyPattern_xor_positionMask (e : Word13) {p : Nat} (hp : p ≤ 12) (x : Byte × Byte) :
    applyPattern (e ^^^ positionMask p) x = flipPair p (applyPattern e x) := by
  have hmask : ∀ q < 13, applyPattern (positionMask q) (0, 0) = flipPair q (0, 0) := by decide
  calc applyPattern (e ^^^ positionMask p) x
      = applyPattern (e ^^^ positionMask p) (xorPair x (0, 0)) := by rw [xorPair_zero]
    _ = xorPair (applyPattern e x) (flipPair p (0, 0)) := by rw [applyPattern_xor, hmask p (by omega)]
    _ = flipPair p (applyPattern e x) := (flipPair_eq_xorPair p _).symm

/-- Flips one after the other make the pattern of their positions together. -/
theorem flipAll_eq_applyPattern {ps : List Nat} (hps : ∀ p ∈ ps, p ≤ 12) (x : Byte × Byte) :
    flipAll ps x = applyPattern (flipsPattern ps) x := by
  have hfrom (e : Word13) :
      flipAll ps (applyPattern e x) = applyPattern (ps.foldl (fun e p => e ^^^ positionMask p) e) x := by
    induction ps generalizing e with
    | nil => rfl
    | cons p ps ih =>
      obtain ⟨hp, hps⟩ := List.forall_mem_cons.1 hps
      refine Eq.trans ?_ (ih hps (e ^^^ positionMask p))
      rw [applyPattern_xor_positionMask e hp]
      rfl
  exact hfrom 0

/-- Settles O23: the syndrome and the match bit of a pattern, the latter as a parity of the number of its positions. -/
theorem syndromeAndMatchOfAnErrorPattern : Obligations.SyndromeAndMatchOfAnErrorPattern := by
  intro d0 e x
  refine ⟨syndrome_applyPattern d0 e, ?_⟩
  rw [parityMatches_applyPattern, Bool.not_eq_true', decide_eq_false_iff_not]
  omega

/-! ### Flips and READs on the machine -/

theorem execAll_append {l : List Instr} {s t : State} (h : execAll l s = .next t) (l' : List Instr) :
    execAll (l ++ l') s = execAll l' t := by
  induction l generalizing s with
  | nil =>
    obtain rfl : s = t := Host.Outcome.next.inj h
    rfl
  | cons i l ih =>
    obtain ⟨u, r, -, hexec⟩ := exec_effect i s
    rw [execAll_cons hexec] at h
    rw [List.cons_append, execAll_cons hexec, ih h]

/-- The pair after flips at one offset of the bank. -/
theorem execAll_flips {ps : List Nat} (hps : ∀ p ∈ ps, p ≤ 12) {s : State} {o : Nat} (ho : o < s.params.memSize) :
    ∃ t, execAll (ps.map fun p => .flipBit o p) s = .next t ∧ t.params = s.params ∧
      (t.dRead o, t.cRead o) = flipAll ps (s.dRead o, s.cRead o) := by
  induction ps generalizing s with
  | nil => exact ⟨s, rfl, rfl, rfl⟩
  | cons p ps ih =>
    obtain ⟨hp, hps⟩ := List.forall_mem_cons.1 hps
    obtain ⟨g, hg⟩ := exists_target hp
    obtain ⟨hdata, hcode⟩ := State.toggle_pair_same hg s o
    have hparams : ((s.toggle o g).respond 0x0000).params = s.params := State.toggle_params s o g
    obtain ⟨t, ht, htparams, hpair⟩ := ih hps (hparams.symm ▸ ho)
    refine ⟨t, (execAll_cons (exec_flipBit_inside ho hg) _).trans ht, htparams.trans hparams, ?_⟩
    rw [hpair, State.respond_dRead, State.respond_cRead, hdata, hcode]
    rfl

/-- Settles O24: the flips make the pattern on the valid pair, and the READ reports the pattern's kind and syndrome. -/
theorem readReportsTheInjectedFlips : Obligations.ReadReportsTheInjectedFlips := by
  intro s o ps ho hvalid hps
  obtain ⟨t, ht, hparams, hpair⟩ := execAll_flips hps ho
  refine ⟨t, _, ht, exec_read_inside (hparams.symm ▸ ho), ?_⟩
  intro e S k
  have hpattern : (t.dRead o, t.cRead o) = applyPattern e (s.dRead o, s.cRead o) :=
    hpair.trans (flipAll_eq_applyPattern hps _)
  have hcode : s.cRead o = computeCodeword (s.dRead o) := hvalid
  have hd : t.dRead o = (applyPattern e (s.dRead o, computeCodeword (s.dRead o))).1 :=
    hcode ▸ congrArg Prod.fst hpattern
  have hc : t.cRead o = (applyPattern e (s.dRead o, computeCodeword (s.dRead o))).2 :=
    hcode ▸ congrArg Prod.snd hpattern
  have hmatch : (!decide (popcount e % 2 = 1)) = (popcount e % 2 == 0) := by
    rw [← decide_not, beq_eq_decide, decide_eq_decide]
    omega
  have hS : syndrome (t.dRead o) (t.cRead o) = S := by
    rw [hd, hc, syndrome_applyPattern]
  have hk : pairKind (t.dRead o) (t.cRead o) = k := by
    rw [hd, hc, pairKind_applyPattern, hmatch]
  refine ⟨hpattern, ?_⟩
  rw [State.lastResponse_respond, readResponse, hk, hS]

/-- A WRITE, flips at the written offset and a READ: what the READ answers and leaves, for the pair `x` that the flips
make of the written one. -/
theorem execAll_write_flips_read {ps : List Nat} (hps : ∀ p ∈ ps, p ≤ 12) {s : State} {o : Nat}
    (ho : o < s.params.memSize) {b : Byte} {x : Byte × Byte} (hx : flipAll ps (b, computeCodeword b) = x) :
    ∃ t, execAll (.write o b :: ((ps.map fun p => .flipBit o p) ++ [.read o])) s = .next t ∧
      t.lastResponse = some (readResponse x.1 x.2) ∧ t.dRead o = x.1 ∧ t.cRead o = codeAfterRead x.1 x.2 := by
  obtain ⟨t, ht, hparams, hpair⟩ :=
    execAll_flips hps (s := ((s.dWrite o b).cWrite o (computeCodeword b)).respond 0x0000) ho
  rw [State.respond_dRead, State.respond_cRead, State.cWrite_cRead_same, State.cWrite_dRead,
    State.dWrite_dRead_same, hx] at hpair
  rw [← hpair, execAll_cons (exec_write_inside ho b), execAll_append ht,
    execAll_cons (exec_read_inside (hparams.symm ▸ ho))]
  exact ⟨_, rfl, State.lastResponse_respond _ _, State.selfHeal_dRead t o o, State.selfHeal_cRead_same t o⟩

/-- Settles O26: no flip between the WRITE and the READ. -/
theorem writeThenReadReturnsTheByte : Obligations.WriteThenReadReturnsTheByte := by
  intro s o b ho
  obtain ⟨t, ht, hlast, -, -⟩ := execAll_write_flips_read (ps := []) nofun ho rfl
  exact ⟨t, ht, hlast.trans (congrArg some (readResponse_computeCodeword b))⟩

/-- R60: correcting at the position of a flip undoes the flip of a data bit. -/
theorem correctAt_flipPair {p : Nat} (hp : p ≤ 12) (x : Byte × Byte) :
    correctAt (BitVec.ofNat 4 p) (flipPair p x).1 = x.1 := by
  obtain ⟨g, hg⟩ := exists_target hp
  have hnumber : (BitVec.ofNat 4 p).toNat = p := Nat.mod_eq_of_lt (by omega)
  simp only [correctAt, flipPair, hnumber, hg]
  cases g with
  | data i => exact toggleBit_toggleBit x.1 i
  | code j => rfl

section
variable {p : Nat} {b : Byte} {x : Byte × Byte} (hp : p ≤ 12) (hx : flipPair p (b, computeCodeword b) = x)
include hp hx

/-- One flip of a valid pair has its position as the syndrome, and no match. -/
theorem syndrome_of_single_flip : syndrome x.1 x.2 = BitVec.ofNat 4 p := by
  rw [← hx, syndrome_flipPair (by omega), syndrome_computeCodeword]
  exact BitVec.zero_xor

theorem parityMatches_of_single_flip : parityMatches x.1 x.2 = false := by
  rw [← hx, parityMatches_flipPair (by omega), parityMatches_computeCodeword, Bool.not_true]

theorem readResponse_of_single_flip (h1 : 1 ≤ p) :
    readResponse x.1 x.2 = responseWord .singleBitError (BitVec.ofNat 4 p) b := by
  have hS := syndrome_of_single_flip hp hx
  have hnumber : (syndrome x.1 x.2).toNat = p := by
    rw [hS, BitVec.toNat_ofNat]
    omega
  have hk : pairKind x.1 x.2 = .singleBitError :=
    (classify_eq_singleBitError_iff _ _).2 ⟨hnumber.symm ▸ ⟨h1, hp⟩, parityMatches_of_single_flip hp hx⟩
  rw [readResponse, hk, hS, ← hx, returnedByte, if_pos rfl, correctAt_flipPair hp]

end

/-- Settles O27: a flip at 1..12 is the row of the table for single-bit errors; a flip at 0 is the row that heals. -/
theorem singleFlipIsLocatedAndCorrected : Obligations.SingleFlipIsLocatedAndCorrected := by
  intro s o p b ho hp
  generalize hx : flipPair p (b, computeCodeword b) = x
  obtain ⟨t, ht, hlast, hdata, hcode⟩ := execAll_write_flips_read (ps := [p]) (by simpa using hp) ho hx
  refine ⟨t, ht, fun h1 => hlast.trans (congrArg some (readResponse_of_single_flip hp hx h1)), ?_⟩
  rintro rfl
  have hS : syndrome x.1 x.2 = 0 := syndrome_of_single_flip hp hx
  have hk : pairKind x.1 x.2 = .parityBitError :=
    (classify_eq_parityBitError_iff _ _).2 ⟨hS, parityMatches_of_single_flip hp hx⟩
  have hbyte : x.1 = b := hx ▸ rfl
  have hlow : x.2.extractLsb' 0 3 = 0 := by
    rw [← hx, low_bits_flipPair, low_bits_computeCodeword]
  refine ⟨?_, ?_, hdata.trans hbyte⟩
  · rw [hlast, readResponse, hk, hS, ← hbyte]
    rfl
  · rw [State.validAt, hdata, hcode, codeAfterRead_of_parityBitError hk]
    exact validPair_healedCode hlow hS

/-- Settles O28: two different positions have a syndrome other than 0, and two flips leave the match bit as it was. -/
theorem doubleFlipIsDetected : Obligations.DoubleFlipIsDetected := by
  intro s o p q b ho hpq hq
  have hps : ∀ r ∈ [p, q], r < 13 := by
    simp only [List.mem_cons, List.not_mem_nil, or_false, forall_eq_or_imp, forall_eq]
    omega
  generalize hx : flipAll [p, q] (b, computeCodeword b) = x
  obtain ⟨t, ht, hlast, hdata, -⟩ :=
    execAll_write_flips_read (fun r hr => Nat.le_of_lt_succ (hps r hr)) ho hx
  have hS : syndrome x.1 x.2 = BitVec.ofNat 4 (p ^^^ q) := by
    rw [← hx, syndrome_flipAll hps, syndrome_computeCodeword, BitVec.ofNat_xor]
    exact congrArg (· ^^^ BitVec.ofNat 4 q) BitVec.zero_xor
  have hm : parityMatches x.1 x.2 = true := by
    rw [← hx, parityMatches_flipAll hps, parityMatches_computeCodeword]
    simp
  have hne : BitVec.ofNat 4 (p ^^^ q) ≠ 0 := by
    have hall : ∀ q < 13, ∀ p < q, BitVec.ofNat 4 (p ^^^ q) ≠ 0 := by decide
    exact hall q (by omega) p hpq
  have hk : pairKind x.1 x.2 = .doubleBitError := (classify_eq_doubleBitError_iff _ _).2 ⟨hS ▸ hne, hm⟩
  refine ⟨t, ht, ?_⟩
  rw [hlast, hdata, readResponse, hk, hS]
  rfl

/-! ### FLIP_BIT (R71) -/

/-- `State.toggle_pair` with the flip of the stored pair named. -/
theorem State.toggle_pair_eq_flipPair {p : Nat} {g : Target} (hg : target p = some g) (s : State) (o a : Nat) :
    ((s.toggle o g).dRead a, (s.toggle o g).cRead a) =
      if a = o then flipPair p (s.dRead a, s.cRead a) else (s.dRead a, s.cRead a) := by
  rw [State.toggle_pair, flipPair, hg]

/-- Settles O35: a flip adds its position to the pattern, the updates of two flips commute on every pair, and no other
offset is reached. -/
theorem flipsCommuteAndAccumulate : Obligations.FlipsCommuteAndAccumulate := by
  refine ⟨fun s t o p d0 e ho hp hpair hexec => ?_, fun s o p o' q ho ho' hp hq => ?_, fun s t o p a ha hexec => ?_⟩
  · obtain ⟨g, hg⟩ := exists_target hp
    obtain ⟨hdata, hcode⟩ := State.toggle_pair_same hg s o
    rw [exec_flipBit_inside ho hg] at hexec
    obtain rfl := Host.Outcome.next.inj hexec
    rw [applyPattern_xor_positionMask e hp, ← hpair, State.respond_dRead, State.respond_cRead, hdata, hcode]
  · obtain ⟨g, hg⟩ := exists_target hp
    obtain ⟨g', hg'⟩ := exists_target hq
    have hrun {o o' p q : Nat} {g g' : Target} (hg : target p = some g) (hg' : target q = some g')
        (ho : o < s.params.memSize) (ho' : o' < s.params.memSize) : execAll [.flipBit o p, .flipBit o' q] s =
          .next ((((s.toggle o g).toggle o' g').respond 0x0000).respond 0x0000) := by
      have hin : o' < ((s.toggle o g).respond 0x0000).params.memSize := by
        rwa [State.respond_params, State.toggle_params]
      rw [execAll_cons (exec_flipBit_inside ho hg), execAll_cons (exec_flipBit_inside hin hg'), execAll_nil,
        State.respond_toggle]
    refine ⟨_, _, hrun hg hg' ho ho', hrun hg' hg ho' ho, fun a => Prod.mk.inj ?_⟩
    simp only [State.respond_dRead, State.respond_cRead, State.toggle_pair_eq_flipPair hg,
      State.toggle_pair_eq_flipPair hg']
    by_cases h : a = o
    · by_cases h' : a = o'
      · simpa only [if_pos h, if_pos h'] using flipPair_comm p q (s.dRead a, s.cRead a)
      · simp only [if_pos h, if_neg h']
    · simp only [if_neg h]
  · exact commandsLeaveOtherOffsetsAlone (.flipBit o p) s t a (Ne.symm ha) hexec

end Sys2Proof.Machine
end

section
/-! PROOFS. Memory, the frame of READ, and the fields of a response (20_memory.md, 41_decoder_read.md, 60_exceptions.md
section 1, 70_reset_and_hazards.md): repeated and later accesses to one offset, and the exhaustive sweep. -/

namespace Sys2Proof.Machine

/-! ### WRITE is idempotent -/

theorem Memory.erase_erase (m : Memory) (a : Nat) : (m.erase a).erase a = m.erase a := by
  induction m with
  | nil => rfl
  | cons x m ih =>
    obtain ⟨k, v⟩ := x
    by_cases hk : k = a
    · simpa only [Memory.erase, if_pos hk] using ih
    · simp only [Memory.erase, if_neg hk, ih]

theorem Memory.erase_insert (m : Memory) (a : Nat) (v : Byte) : (m.insert a v).erase a = m.erase a := by
  induction m with
  | nil => simp only [Memory.insert, Memory.erase, if_true]
  | cons x m ih =>
    obtain ⟨k, w⟩ := x
    simp only [Memory.insert]
    split
    · simp only [Memory.erase, if_true]
    · simp only [Memory.erase, ih]

/-- A second write of the same byte leaves the very array of the first, canonical or not. -/
theorem Memory.write_write_same (m : Memory) (a : Nat) (v : Byte) : (m.write a v).write a v = m.write a v := by
  unfold Memory.write
  split
  · exact Memory.erase_erase m a
  · rw [Memory.erase_insert, Memory.erase_erase]

/-- Settles O20: outside the bank nothing is written; inside it both arrays are written twice alike. -/
theorem writeIsIdempotent : Obligations.WriteIsIdempotent := by
  intro s t u o b ht hu
  obtain ⟨ho, rfl⟩ | ⟨ho, rfl⟩ := execWrite_next ht
  · obtain ⟨-, rfl⟩ | ⟨ho', -⟩ := execWrite_next hu
    · rfl
    · exact absurd ho' (Nat.not_lt.2 ho)
  · obtain ⟨ho', -⟩ | ⟨-, rfl⟩ := execWrite_next hu
    · exact absurd ho (Nat.not_lt.2 ho')
    · simp only [State.dWrite, State.cWrite, State.respond, Memory.write_write_same]

/-! ### What READ leaves alone -/

/-- A READ writes on ParityBitError only (R61). -/
theorem State.selfHeal_of_ne {s : State} {o : Nat} (h : pairKind (s.dRead o) (s.cRead o) ≠ .parityBitError) :
    s.selfHeal o = s := if_neg h

theorem codeAfterRead_getLsbD (d c : Byte) {i : Nat} (hi : i < 7) :
    (codeAfterRead d c).getLsbD i = c.getLsbD i := by
  unfold codeAfterRead
  split
  · rw [healedCode_getLsbD d c (by omega), if_neg (by omega)]
  · rfl

/-- Settles O31: a READ makes the self-heal or nothing, and the self-heal is one bit of one code byte. -/
theorem readChangesAtMostTheStoredOverallParity : Obligations.ReadChangesAtMostTheStoredOverallParity := by
  intro s t o hread
  obtain ⟨-, rfl⟩ | ⟨ho, rfl⟩ := execRead_next hread
  · exact ⟨fun _ => rfl, fun _ _ => rfl, fun _ _ => rfl, fun _ => rfl, rfl, rfl, rfl, rfl⟩
  · have hkind := lastResponse_kind_of_read ho hread .parityBitError
    refine ⟨State.selfHeal_dRead s o, fun a ha => ?_, fun i hi => ?_, fun hne => ?_, State.selfHeal_bank_traceEnable s o,
      State.selfHeal_params s o, State.selfHeal_hasBeenReset s o, by rw [State.respond_host_pending, State.selfHeal_host]⟩
    · rw [State.respond_cRead, State.selfHeal_cRead, if_neg ha]
    · rw [State.respond_cRead, State.selfHeal_cRead_same, codeAfterRead_getLsbD _ _ hi]
    · rw [State.respond_bank, State.selfHeal_of_ne (mt hkind.2 hne)]

/-- Settles O30: the READ of a single-bit error writes nothing, so that the next one finds the same pair; and a WRITE of any
byte is read back. -/
theorem singleBitErrorsPersistUntilWritten : Obligations.SingleBitErrorsPersistUntilWritten := by
  intro s t o r ho hread hlast hsingle
  have hk : pairKind (s.dRead o) (s.cRead o) = .singleBitError :=
    (lastResponse_kind_of_read ho hread .singleBitError).1 (by rw [hlast, Option.map_some, hsingle]; rfl)
  obtain rfl := eq_of_exec_read ho hread
  rw [State.selfHeal_of_ne (by rw [hk]; decide)] at hlast ⊢
  rw [State.lastResponse_respond] at hlast
  refine ⟨rfl, ⟨_, exec_read_inside ho, ?_⟩, writeThenReadReturnsTheByte _ o _ ho⟩
  rw [State.lastResponse_respond]
  exact hlast

/-! ### The fields of a response (R44, R76) -/

theorem reply_of_exec {i : Instr} {s t : State} {r : ResponseWord} (h : exec i s = .next t)
    (hlast : t.lastResponse = some r) : Reply s i r := by
  obtain ⟨u, r', -, hreply, hexec⟩ := exec_next i s
  obtain rfl := Host.Outcome.next.inj (h.symm.trans hexec)
  obtain rfl := Option.some.inj ((State.lastResponse_respond u r').symm.trans hlast)
  exact hreply

/-- The syndrome that each classification comes with (R59), read off the response of a READ. -/
theorem readResponse_fields {d c : Byte} {r : ResponseWord} (hr : r = readResponse d c) :
    (respKind r).toNat ≤ 4 ∧ (respKind r = 0 ∨ respKind r = 1 → respSyn r = 0) ∧
    (respKind r = 2 → 1 ≤ (respSyn r).toNat ∧ (respSyn r).toNat ≤ 12) ∧ (respKind r = 3 → respSyn r ≠ 0) ∧
    (respKind r = 4 → 13 ≤ (respSyn r).toNat) := by
  have htable : ∀ (S : Nibble) (m : Bool), (classify S m).code.toNat ≤ 4 ∧
      ((classify S m).code = 0 ∨ (classify S m).code = 1 → S = 0) ∧
      ((classify S m).code = 2 → 1 ≤ S.toNat ∧ S.toNat ≤ 12) ∧ ((classify S m).code = 3 → S ≠ 0) ∧
      ((classify S m).code = 4 → 13 ≤ S.toNat) := by decide
  rw [hr, readResponse, respKind_responseWord, respSyn_responseWord]
  exact htable _ _

/-- Settles O43: three closed words, and the classifier's table for a READ in the bank. -/
theorem responseFieldsByCommand : Obligations.ResponseFieldsByCommand := by
  intro i s t r hexec hresponses
  have hlast : t.lastResponse = some r := by rw [State.lastResponse, hresponses, List.getLast?_concat]
  cases reply_of_exec hexec hlast with
  | noError =>
    exact ⟨by decide, fun _ => by decide, fun h => absurd h (by decide), fun h => absurd h (by decide), by decide⟩
  | boundsOffset hi =>
    exact ⟨by decide, fun _ => by decide, fun _ => hi, fun h => absurd h (by decide), by decide⟩
  | boundsPosition o p =>
    exact ⟨by decide, fun _ => by decide, fun h => absurd h (by decide), fun _ => ⟨o, p, rfl⟩, by decide⟩
  | classified o =>
    obtain ⟨hle, hclean, hsingle, hdouble, hunknown⟩ := readResponse_fields (d := s.dRead o) (c := s.cRead o) rfl
    have hno (n : Nibble) (hn : 4 < n.toNat) (h : respKind (readResponse (s.dRead o) (s.cRead o)) = n) : False := by
      rw [h] at hle
      omega
    exact ⟨by omega, fun h => absurd rfl (h o), fun h => (hno 5 (by decide) h).elim,
      fun h => (hno 6 (by decide) h).elim, fun h => (hno 5 (by decide) h).elim, hclean, hsingle, hdouble, hunknown⟩

/-! ### Read after write (R32) -/

/-- Commands that do not reach an offset all complete and leave its pair as it was. -/
theorem execAll_samePair {l : List Instr} {a : Nat} (hl : ∀ i ∈ l, ¬ i.reaches a) (s : State) :
    ∃ t, execAll l s = .next t ∧ t.params = s.params ∧ s.samePair t a := by
  induction l generalizing s with
  | nil => exact ⟨s, rfl, rfl, rfl, rfl⟩
  | cons i l ih =>
    obtain ⟨hi, hl⟩ := List.forall_mem_cons.1 hl
    obtain ⟨u, r, hu, hexec⟩ := exec_effect i s
    obtain ⟨t, ht, hparams, hdata, hcode⟩ := ih hl (u.respond r)
    obtain ⟨hudata, hucode⟩ := hu.samePair hi
    exact ⟨t, (execAll_cons hexec l).trans ht, hparams.trans hu.params, hdata.trans hudata, hcode.trans hucode⟩

/-- Settles O46: the commands between keep the written pair, which is valid. -/
theorem readAfterWriteSeesTheWrittenPair : Obligations.ReadAfterWriteSeesTheWrittenPair := by
  intro s o b between ho hbetween
  let written := ((s.dWrite o b).cWrite o (computeCodeword b)).respond 0x0000
  obtain ⟨t, ht, hparams, hpair⟩ := execAll_samePair hbetween written
  have hdata : t.dRead o = b := hpair.1.trans (State.dWrite_dRead_same s o b)
  have hcode : t.cRead o = computeCodeword b := hpair.2.trans (State.cWrite_cRead_same _ _ _)
  have hin : o < t.params.memSize := hparams.symm ▸ ho
  obtain ⟨u, hu, hlast⟩ := exec_read_valid hin (show t.validAt o by rw [State.validAt, hdata, hcode])
  exact ⟨t, u, (execAll_cons (exec_write_inside ho b) between).trans ht, hdata, hcode, hu, hdata ▸ hlast⟩

/-! ### The sweep (R90) -/

/-- A READ of a valid pair leaves of itself only its response. -/
theorem exec_read_of_validAt {s : State} {o : Nat} (ho : o < s.params.memSize) (hv : s.validAt o) :
    exec (.read o) s = .next (s.respond (responseWord .noError 0 (s.dRead o))) := by
  have hcode : s.cRead o = computeCodeword (s.dRead o) := hv
  have hkind : pairKind (s.dRead o) (s.cRead o) ≠ .parityBitError := by
    rw [hcode, pairKind_computeCodeword]
    decide
  rw [exec_read_inside ho, State.selfHeal_of_ne hkind, hcode, readResponse_computeCodeword]

section
variable {n : Nat} {l : List Nat} (hl : ∀ o ∈ l, o < n) {s : State} (hn : s.params.memSize = n)
include hl hn

/-- WRITEs in the bank of a byte for each offset: each is answered NoError, and the last word at every written offset is
its byte, however often it occurs. -/
theorem execAll_writes (byteOf : Nat → Byte) :
    ∃ t, execAll (l.map fun o => .write o (byteOf o)) s = .next t ∧ t.params.memSize = n ∧
      t.host.responses = s.host.responses ++ l.map (fun _ => 0x0000) ∧
      ∀ a, (a ∈ l ∨ s.dRead a = byteOf a ∧ s.validAt a) → t.dRead a = byteOf a ∧ t.validAt a := by
  induction l generalizing s with
  | nil =>
    exact ⟨s, rfl, hn, (List.append_nil _).symm, fun a ha => ha.resolve_left List.not_mem_nil⟩
  | cons o l ih =>
    obtain ⟨ho, hl⟩ := List.forall_mem_cons.1 hl
    let written := ((s.dWrite o (byteOf o)).cWrite o (computeCodeword (byteOf o))).respond 0x0000
    obtain ⟨t, ht, htn, hresponses, hpairs⟩ := ih hl (s := written) hn
    refine ⟨t, (execAll_cons (exec_write_inside (hn.symm ▸ ho) _) _).trans ht, htn, ?_, fun a ha => hpairs a ?_⟩
    · rw [hresponses, State.respond_host_responses, List.append_assoc]
      rfl
    · by_cases hao : a = o
      · obtain rfl := hao
        have hdata : written.dRead a = byteOf a := State.dWrite_dRead_same s a _
        refine .inr ⟨hdata, ?_⟩
        rw [State.validAt, hdata]
        exact State.cWrite_cRead_same _ _ _
      · obtain ⟨hdata, hcode⟩ := State.samePair_writes hao s (byteOf o) (computeCodeword (byteOf o))
        refine ha.imp (fun ha => (List.mem_cons.1 ha).resolve_left hao) fun ⟨hd, hv⟩ => ⟨hdata.trans hd, ?_⟩
        exact hcode.trans (hv.trans (congrArg computeCodeword hdata.symm))

/-- READs of valid pairs in the bank: each is answered NoError and its byte. -/
theorem execAll_reads {byteOf : Nat → Byte} (hpairs : ∀ o ∈ l, s.dRead o = byteOf o ∧ s.validAt o) :
    ∃ t, execAll (l.map fun o => .read o) s = .next t ∧
      t.host.responses = s.host.responses ++ l.map (fun o => responseWord .noError 0 (byteOf o)) := by
  induction l generalizing s with
  | nil => exact ⟨s, rfl, (List.append_nil _).symm⟩
  | cons o l ih =>
    obtain ⟨ho, hl⟩ := List.forall_mem_cons.1 hl
    obtain ⟨⟨hdata, hvalid⟩, hpairs⟩ := List.forall_mem_cons.1 hpairs
    have hexec := exec_read_of_validAt (hn.symm ▸ ho) hvalid
    rw [hdata] at hexec
    obtain ⟨t, ht, hresponses⟩ := ih hl (s := s.respond (responseWord .noError 0 (byteOf o))) hn hpairs
    refine ⟨t, (execAll_cons hexec _).trans ht, ?_⟩
    rw [hresponses, State.respond_host_responses, List.append_assoc]
    rfl

end

/-- Settles O53: the fresh bank holds valid pairs of 0x00; and the WRITEs of the sweep leave a valid pair of its byte at
every offset of the bank. -/
theorem sweepReadsBack : Obligations.SweepReadsBack := by
  refine ⟨computeCodeword_zero, fun p o ho => ?_, fun s => ?_⟩
  · obtain ⟨-, -, -, hvalid⟩ := State.values_of_bank_zero (State.resetWith_bank p) o
    exact ⟨_, exec_read_of_validAt ho hvalid, congrArg (fun r => [r]) responseWord_noError⟩
  · intro offsets byteOf
    have hoffsets (o : Nat) (ho : o ∈ offsets) : o < s.params.memSize := List.mem_range.1 ho
    obtain ⟨t, ht, hn, hwrites, hpairs⟩ := execAll_writes hoffsets rfl byteOf
    obtain ⟨u, hu, hreads⟩ := execAll_reads hoffsets hn fun o ho => hpairs o (.inl ho)
    exact ⟨u, (execAll_append ht _).trans hu, by rw [hreads, hwrites]⟩

end Sys2Proof.Machine
end
